-- ==== Sys2Proof/Word.lean ====
section
/-! DEFINITION. The two word types of the core: the byte (R20, R51) and the 9-bit program counter (R25). -/

namespace Sys2Proof

/-- A register, a memory cell, an operand byte or an output value: 8 bits, unsigned (R7, R20, R51). -/
abbrev Byte := BitVec 8

/-- The program counter's word: 9 bits, of which the values 0 to 256 arise (R25). -/
abbrev PcWord := BitVec 9

end Sys2Proof
end

