-- ==== Sys2Proof/Syntax.lean ====
section
/-! DEFINITION. The instructions: one constructor for each row of spec/opcode_table.json, with its operand bytes. -/

namespace Sys2Proof

/-- The nine instructions (R3, R75). An operand is the WHOLE operand byte (R71): a register operand above 7 is a legal
encoding, and it is its execution that raises OutOfBoundsAddress (R72, R79). -/
inductive Instr where
  /-- HLT: format N, no operand (R101). -/
  | hlt
  /-- RET: format N, no operand (R156). -/
  | ret
  /-- PUSH r: format R (R135). -/
  | push (r : Byte)
  /-- POP r: format R (R140). -/
  | pop (r : Byte)
  /-- PRN r: format R (R115). -/
  | prn (r : Byte)
  /-- CALL r: format R; `r` names the register that holds the target address (R150). -/
  | call (r : Byte)
  /-- LDI r, imm: format RI (R110). -/
  | ldi (r imm : Byte)
  /-- ADD a, b: format RR; `a` is destination and first source (R122). -/
  | add (a b : Byte)
  /-- MUL a, b: format RR; `a` is destination and first source (R126). -/
  | mul (a b : Byte)
  deriving DecidableEq, Repr

/-- The instruction names, in the opcode order of R75's table. -/
inductive Mnemonic where
  | hlt | ret | push | pop | prn | call | ldi | add | mul
  deriving DecidableEq, Repr

/-- The four formats of R71. -/
inductive Format where
  /-- the opcode byte alone -/
  | n
  /-- the opcode and a register index -/
  | r
  /-- the opcode and two register indices -/
  | rr
  /-- the opcode, a register index and an immediate -/
  | ri
  deriving DecidableEq, Repr

/-- The name of an instruction. -/
def Instr.mnemonic : Instr → Mnemonic
  | .hlt => .hlt
  | .ret => .ret
  | .push _ => .push
  | .pop _ => .pop
  | .prn _ => .prn
  | .call _ => .call
  | .ldi _ _ => .ldi
  | .add _ _ => .add
  | .mul _ _ => .mul

/-- The operand bytes of an instruction that are register indices, in operand order (R71, R173 item 4). -/
def Instr.registerOperands : Instr → List Byte
  | .hlt => []
  | .ret => []
  | .push r => [r]
  | .pop r => [r]
  | .prn r => [r]
  | .call r => [r]
  | .ldi r _ => [r]
  | .add a b => [a, b]
  | .mul a b => [a, b]

/-- The same instruction with every register index replaced by its image under `f`. -/
def Instr.mapRegisters (f : Byte → Byte) : Instr → Instr
  | .hlt => .hlt
  | .ret => .ret
  | .push r => .push (f r)
  | .pop r => .pop (f r)
  | .prn r => .prn (f r)
  | .call r => .call (f r)
  | .ldi r imm => .ldi (f r) imm
  | .add a b => .add (f a) (f b)
  | .mul a b => .mul (f a) (f b)

end Sys2Proof
end

