-- ==== Sys2Proof/WellFormed.lean ====
section
/-! DEFINITION. When an instruction is well formed: every register operand names a register. -/

namespace Sys2Proof

/-- An index that names one of R0 to R7 (R20, R72). -/
def registerIndexOk (i : Byte) : Bool := decide (i.toNat < 8)

/-- `i` can be written in R81's form (Rn is R0 to R7), which is what R203 item 4 asks of a program. An instruction that
is not well formed still decodes and runs: it raises OutOfBoundsAddress RegisterIndex (R72). -/
def Instr.wellFormed (i : Instr) : Bool := i.registerOperands.all registerIndexOk

end Sys2Proof
end

