-- ==== Sys2Proof/Decode.lean ====
section
/-! DEFINITION. The opcode map, the decoder (total on any bytes, rejecting by name), the encoder written from the same
map, and the reading of a word as spec/opcode_table.json numbers it. -/

namespace Sys2Proof

/-- Why bytes are no instruction. -/
inductive DecodeError where
  /-- there is no opcode byte -/
  | noOpcode
  /-- the opcode byte is none of the nine (R78) -/
  | illegalOpcode (op : Byte)
  /-- byte `k` of the instruction that begins with `op` is missing, the lowest one that is (R93) -/
  | missingOperand (op : Byte) (k : Nat)
  deriving DecidableEq, Repr

/-- The opcode of each instruction (R75). -/
def Mnemonic.opcode : Mnemonic → Byte
  | .hlt => 0x01
  | .ret => 0x11
  | .push => 0x45
  | .pop => 0x46
  | .prn => 0x47
  | .call => 0x50
  | .ldi => 0x82
  | .add => 0xA0
  | .mul => 0xA2

/-- The format of each instruction (R71, R75). -/
def Mnemonic.format : Mnemonic → Format
  | .hlt => .n
  | .ret => .n
  | .push => .r
  | .pop => .r
  | .prn => .r
  | .call => .r
  | .ldi => .ri
  | .add => .rr
  | .mul => .rr

/-- The number of bytes of a format, the opcode byte among them (R71). -/
def Format.length : Format → Nat
  | .n => 1
  | .r => 2
  | .rr => 3
  | .ri => 3

/-- The nine instructions, in opcode order (R75). -/
def Mnemonic.all : List Mnemonic := [.hlt, .ret, .push, .pop, .prn, .call, .ldi, .add, .mul]

/-- The fixed mapping from opcode byte to handler, comparing all 8 bits (R75, R94). -/
def dispatch (op : Byte) : Option Mnemonic := Mnemonic.all.find? (fun m => m.opcode == op)

/-- The instruction of a format R opcode `op`, from the bytes after the opcode. -/
def oneOperand (op : Byte) (mk : Byte → Instr) : List Byte → Except DecodeError (Instr × List Byte)
  | [] => .error (.missingOperand op 1)
  | r :: rest => .ok (mk r, rest)

/-- The instruction of a format RR or RI opcode `op`, from the bytes after the opcode, in ascending order (R71, R93). -/
def twoOperands (op : Byte) (mk : Byte → Byte → Instr) : List Byte → Except DecodeError (Instr × List Byte)
  | [] => .error (.missingOperand op 1)
  | [_] => .error (.missingOperand op 2)
  | a :: b :: rest => .ok (mk a b, rest)

/-- The instruction at the head of `bytes` and the bytes after it (R70 to R73, R80). The opcode is looked up before any
operand byte is read (R78, R94). -/
def decode : List Byte → Except DecodeError (Instr × List Byte)
  | [] => .error .noOpcode
  | op :: rest =>
    match dispatch op with
    | none => .error (.illegalOpcode op)
    | some .hlt => .ok (.hlt, rest)
    | some .ret => .ok (.ret, rest)
    | some .push => oneOperand op .push rest
    | some .pop => oneOperand op .pop rest
    | some .prn => oneOperand op .prn rest
    | some .call => oneOperand op .call rest
    | some .ldi => twoOperands op .ldi rest
    | some .add => twoOperands op .add rest
    | some .mul => twoOperands op .mul rest

/-- The opcode byte of an instruction (R75). -/
def Instr.opcode (i : Instr) : Byte := i.mnemonic.opcode

/-- The length in bytes of an instruction, fixed by its opcode (R70, R76). -/
def Instr.length (i : Instr) : Nat := i.mnemonic.format.length

/-- The operand bytes of an instruction, in ascending addresses (R71). -/
def Instr.operands : Instr → List Byte
  | .hlt => []
  | .ret => []
  | .push r => [r]
  | .pop r => [r]
  | .prn r => [r]
  | .call r => [r]
  | .ldi r imm => [r, imm]
  | .add a b => [a, b]
  | .mul a b => [a, b]

/-- The bytes of an instruction, the opcode at the lowest address (R53, R71). -/
def encode (i : Instr) : List Byte := i.opcode :: i.operands

/-- The three bytes of a word whose bits are numbered as spec/opcode_table.json numbers them: bit 0 is bit 0 of the
first byte, the second byte is bits 15 to 8. The bits from `nbits` up are 0. -/
def tableBytes (nbits w : Nat) : List Byte :=
  let v := w % 2 ^ nbits
  [BitVec.ofNat 8 v, BitVec.ofNat 8 (v / 256), BitVec.ofNat 8 (v / 65536)]

/-- The instruction the decoder reads from a table word. -/
def decodeTableWord (nbits w : Nat) : Option Instr :=
  match decode (tableBytes nbits w) with
  | .ok (i, _) => some i
  | .error _ => none

end Sys2Proof
end

