-- ==== Sys2Proof/Config.lean ====
section
/-! DEFINITION. The parameters of R6, each fixed for this hardware. "No parameter is left open to the model" (R6):
there is no free value here. -/

namespace Sys2Proof.Config

/-- MEM_SIZE: the number of memory cells; the addresses are 0 to 255 (R6, R34). -/
def memSize : Nat := 256

/-- SP_INDEX: the register that is the stack pointer (R6, R22). -/
def spIndex : Fin 8 := 7

/-- SP_INIT: the stack pointer's value from start on (R6, R39). -/
def spInit : Byte := 0xF4

/-- PC_INIT: the program counter after construction, where the first fetch happens (R6, R41, R56). -/
def pcInit : PcWord := 0

/-- MAX_IMAGE_LEN: the longest program image the host may load (R6, R58). -/
def maxImageLen : Nat := 256

end Sys2Proof.Config
end

