-- ==== Sys2Proof/Machine/State.lean ====
section
/-! DEFINITION. The state of the core: exactly the six components of R35, as plain data; its value after reset; and the
reasons of a step's outcome. -/

namespace Sys2Proof.Machine

/-- The run phase (R28). -/
inductive Phase where
  /-- constructed or loaded, not yet started -/
  | idle
  /-- the source's running flag is true -/
  | running
  /-- ended by HLT -/
  | halted
  /-- ended by an error -/
  | faulted
  deriving DecidableEq, Repr

/-- The three errors of the core (R170). -/
inductive ErrorCode where
  /-- code 1 -/
  | illegalInstruction
  /-- code 2 -/
  | outOfBoundsAddress
  /-- code 3 -/
  | unsupportedAluOperation
  deriving DecidableEq, Repr

/-- The kinds of OutOfBoundsAddress (R171). -/
inductive OobKind where
  | fetchAddress
  | registerIndex
  | stackPointer
  | returnAddress
  deriving DecidableEq, Repr

/-- The fault record of R29. The value is an integer, since StackPointer may record -1 (R171). -/
structure FaultRecord where
  code   : ErrorCode
  pc     : PcWord
  opcode : Option Byte
  kind   : Option OobKind
  value  : Option Int
  deriving DecidableEq, Repr

/-- What an instruction raises: the error E and its info of R11, before it is made a fault record. -/
inductive CoreError where
  /-- the opcode is not in the mapping (R94) -/
  | illegalInstruction
  /-- an access outside its range (R171) -/
  | outOfBounds (kind : OobKind) (value : Int)
  /-- the ALU was given a tag other than ADD and MUL (R128) -/
  | unsupportedAluOperation
  deriving DecidableEq, Repr

/-- Memory, as the (address, byte) pairs of the cells that do not hold 0, in rising order of address (`Memory.wf`).
An unlisted cell reads 0, its construction value (R41, R61). -/
abbrev Memory := List Host.Cell

/-- The six components of R35. -/
structure State where
  /-- `mem`: 256 cells of 8 bits (R34, R50) -/
  mem   : Memory
  /-- `x[0]` to `x[7]`; `x[7]` is the stack pointer (R20, R22) -/
  regs  : Vector Byte 8
  /-- `pc`: during an instruction, the address of its opcode byte (R25, R26) -/
  pc    : PcWord
  /-- `phase` (R28) -/
  phase : Phase
  /-- `fault`: the fault record, or none (R29) -/
  fault : Option FaultRecord
  /-- `out`: the bytes PRN has emitted, the oldest first (R31) -/
  out   : List Byte
  deriving DecidableEq, Repr

/-- Reset is the source's construction: the "after reset" column of R41 (R40, R200). -/
def State.reset : State where
  mem   := []
  regs  := Vector.replicate 8 0
  pc    := Config.pcInit
  phase := .idle
  fault := none
  out   := []

/-- The reasons for which the step function itself would stop without a next state. THERE IS NONE: every error of this
core has an entry the spec describes (R172), so it is a next state with phase Faulted, and R98 makes the step total.
Nobody raises a `Fault`; that no value exists is safe, since no run can end here. -/
inductive Fault where
  deriving DecidableEq, Repr

/-- The reasons for which an instruction would have no meaning in the model. -/
inductive Refusal where
  /-- Raised by an arm of `exec` whose instruction has no meaning yet; no arm is left so. Safe: it stops. -/
  | notModelled (mnemonic : String)
  deriving DecidableEq, Repr

/-- What a step or a meaning answers. -/
abbrev Result := Host.Outcome State Fault Refusal

end Sys2Proof.Machine
end

