-- ==== Sys2Proof/Machine/Memory.lean ====
section
/-! DEFINITION. Memory: reading and writing one cell, and the canonical form. Every access of the core is one byte
(R53, R55), so there is no wider access and no byte order. -/

namespace Sys2Proof.Machine

/-- What a cell that is not listed reads as: the construction value (R41, R61). -/
def unwrittenByte : Byte := 0

/-- The byte at address `a` (R51): the most recent one written, or the construction value (R61). -/
def Memory.read : Memory → Nat → Byte
  | [], _ => unwrittenByte
  | (b, w) :: rest, a => if a = b then w else Memory.read rest a

/-- The cells with no entry for address `a`. -/
def Memory.erase : Memory → Nat → Memory
  | [], _ => []
  | (b, w) :: rest, a => if a = b then Memory.erase rest a else (b, w) :: Memory.erase rest a

/-- The entry (`a`, `v`) put before the first entry of a higher address. -/
def Memory.place : Memory → Nat → Byte → Memory
  | [], a, v => [(a, v)]
  | (b, w) :: rest, a, v => if a < b then (a, v) :: (b, w) :: rest else (b, w) :: Memory.place rest a v

/-- `mem[a] <- v` (R10). Writing the construction value removes the entry, so equal memories are equal lists. -/
def Memory.write (m : Memory) (a : Nat) (v : Byte) : Memory :=
  if v = unwrittenByte then m.erase a else (m.erase a).place a v

/-- Every address in `m` is above `a`. -/
def Memory.above (a : Nat) (m : Memory) : Bool := m.all (fun c => decide (a < c.1))

/-- The canonical form: addresses strictly rising and within the address space 0 to 255 (R50), no cell listed that
holds the construction value. -/
def Memory.wf : Memory → Bool
  | [] => true
  | (a, v) :: rest => decide (a < Config.memSize) && decide (v ≠ unwrittenByte) && Memory.above a rest && Memory.wf rest

end Sys2Proof.Machine
end

