-- ==== Sys2Proof/Machine/Ops.lean ====
section
/-! DEFINITION. The shared operations: registers, memory at an 8-bit address, the stack, the output port, raising an
error (the core's one exception entry) and ending an instruction. -/

namespace Sys2Proof.Machine

/-! ### Registers, program counter, memory, output -/

/-- `x[i]` (R8). -/
def State.getReg (s : State) (i : Fin 8) : Byte := s.regs[i]

/-- `x[i] <- v` (R8). No register is hardwired (R21). -/
def State.setReg (s : State) (i : Fin 8) (v : Byte) : State := { s with regs := s.regs.set i v }

/-- `SP` is shorthand for `x[7]` (R8, R22). -/
def State.sp (s : State) : Byte := s.getReg Config.spIndex

/-- `SP <- v`. -/
def State.setSp (s : State) (v : Byte) : State := s.setReg Config.spIndex v

/-- `MemRead(a, 1)` at an 8-bit address, which is always in range (R10, R52). -/
def State.readMem (s : State) (a : Byte) : Byte := s.mem.read a.toNat

/-- `MemWrite(a, 1, v)` at an 8-bit address (R10, R51). -/
def State.writeMem (s : State) (a v : Byte) : State := { s with mem := s.mem.write a.toNat v }

/-- `pc <- target` (R8). -/
def State.setPc (s : State) (target : PcWord) : State := { s with pc := target }

/-- `pc <- p + n`, since the pc holds `p` until the instruction ends (R26, R91). -/
def State.advance (s : State) (n : Nat) : State := s.setPc (s.pc + BitVec.ofNat 9 n)

/-- `phase <- q`. -/
def State.setPhase (s : State) (q : Phase) : State := { s with phase := q }

/-- `emit(v)`: one output event, appended to the end of `out` (R12, R36). -/
def State.emit (s : State) (v : Byte) : State := { s with out := s.out ++ [v] }

/-! ### Errors: the core's only exception entry -/

/-- The number of an error (R170). -/
def ErrorCode.number : ErrorCode → Nat
  | .illegalInstruction => 1
  | .outOfBoundsAddress => 2
  | .unsupportedAluOperation => 3

/-- The code of what is raised (R170). -/
def CoreError.code : CoreError → ErrorCode
  | .illegalInstruction => .illegalInstruction
  | .outOfBounds _ _ => .outOfBoundsAddress
  | .unsupportedAluOperation => .unsupportedAluOperation

/-- The kind recorded: none but for OutOfBoundsAddress (R29). -/
def CoreError.kind : CoreError → Option OobKind
  | .illegalInstruction => none
  | .outOfBounds k _ => some k
  | .unsupportedAluOperation => none

/-- The value recorded: none but for OutOfBoundsAddress (R29). -/
def CoreError.value : CoreError → Option Int
  | .illegalInstruction => none
  | .outOfBounds _ v => some v
  | .unsupportedAluOperation => none

/-- FAULT ENTRY (R11, R172): phase becomes Faulted, the record names the error, the pc of the instruction and its
opcode (none when the opcode fetch itself failed), and every other component keeps its value from before the
instruction. There is no return from it (R176): only `State.reset` leaves Faulted (R40). -/
def State.raise (s : State) (opcode : Option Byte) (e : CoreError) : State :=
  { s with
    phase := .faulted
    fault := some { code := e.code, pc := s.pc, opcode := opcode, kind := e.kind, value := e.value } }

/-- The end of instruction `i` begun at `s`: the staged writes take effect together, or none of them does and the fault
entry happens instead (R11, R97). -/
def finish (i : Instr) (s : State) : Except CoreError State → Result
  | .ok t => .next t
  | .error e => .next (s.raise (some i.opcode) e)

/-! ### The stack (R145) -/

/-- The address the next push stores to, which is the decremented SP; "SP may not go below 0" (R135, R150). -/
def State.pushSlot (s : State) : Except CoreError Byte :=
  if s.sp = 0 then .error (.outOfBounds .stackPointer (-1)) else .ok (s.sp - 1)

/-- `SP <- SP - 1` and `MemWrite(SP, 1, v)`, shared by PUSH and CALL (R135, R150). -/
def State.pushByte (s : State) (v : Byte) : Except CoreError State := do
  let slot ← s.pushSlot
  pure ((s.setSp slot).writeMem slot v)

/-- `SP <- SP + 1`, shared by POP and RET; it raises when the value to be incremented is 255 (R140, R156). -/
def State.popSp (s : State) : Except CoreError State :=
  if s.sp = 255 then .error (.outOfBounds .stackPointer 256) else .ok (s.setSp (s.sp + 1))

end Sys2Proof.Machine
end

