-- ==== Sys2Proof/Machine/Operands.lean ====
section
/-! DEFINITION. The operand forms: a register index (R72) and an immediate (R73, used as it is: it needs no operation).
There is no other (R74). -/

namespace Sys2Proof.Machine

/-- `CheckReg(i)`: the register that an operand byte names, the whole byte being the index (R9, R72). -/
def checkReg (i : Byte) : Except CoreError (Fin 8) :=
  if h : i.toNat < 8 then .ok ⟨i.toNat, h⟩ else .error (.outOfBounds .registerIndex i.toNat)

end Sys2Proof.Machine
end

