-- ==== Sys2Proof/Machine/Alu.lean ====
section
/-! DEFINITION. The ALU (R120, R121, R128) and its two instructions, ADD (R122) and MUL (R126). -/

namespace Sys2Proof.Machine

/-- An operation tag the ALU may be given (R120). -/
inductive AluOp where
  | add
  | mul
  /-- any other tag; no instruction gives one (R128) -/
  | other (tag : Byte)
  deriving DecidableEq, Repr

/-- The ALU: a pure function of the tag and two register values, the result reduced modulo 256 (R120, R121). Any other
tag fails (R128). -/
def alu (op : AluOp) (va vb : Byte) : Except CoreError Byte :=
  match op with
  | .add => .ok (BitVec.ofNat 8 ((va.toNat + vb.toNat) % 256))
  | .mul => .ok (BitVec.ofNat 8 ((va.toNat * vb.toNat) % 256))
  | .other _ => .error .unsupportedAluOperation

/-- `apply(operation, a, b)`: both indices are checked, `a` first, and the result goes to the register `a` (R120). -/
def aluApply (op : AluOp) (a b : Byte) (s : State) : Except CoreError State := do
  let d ← checkReg a
  let e ← checkReg b
  let v ← alu op (s.getReg d) (s.getReg e)
  pure ((s.setReg d v).advance 3)

/-- ADD a, b (R122). -/
def execAdd (a b : Byte) (s : State) : Result :=
  finish (.add a b) s (aluApply .add a b s)

/-- MUL a, b (R126). -/
def execMul (a b : Byte) (s : State) : Result :=
  finish (.mul a b) s (aluApply .mul a b s)

end Sys2Proof.Machine
end

