-- ==== Sys2Proof/Machine/LoadOutput.lean ====
section
/-! DEFINITION. Load immediate and output: LDI (R110) and PRN (R115). -/

namespace Sys2Proof.Machine

/-- LDI r, imm (R110). -/
def execLdi (r imm : Byte) (s : State) : Result :=
  finish (.ldi r imm) s do
    let d ← checkReg r
    pure ((s.setReg d imm).advance 3)

/-- PRN r (R115): one output event with the value of the register. -/
def execPrn (r : Byte) (s : State) : Result :=
  finish (.prn r) s do
    let d ← checkReg r
    pure ((s.emit (s.getReg d)).advance 2)

end Sys2Proof.Machine
end

