-- ==== Sys2Proof/Machine/Stack.lean ====
section
/-! DEFINITION. The stack instructions, PUSH (R135) and POP (R140). -/

namespace Sys2Proof.Machine

/-- PUSH r (R135): the value is read before the decrement, so PUSH R7 stores the old SP (90_conflicts.md C4). -/
def execPush (r : Byte) (s : State) : Result :=
  finish (.push r) s do
    let d ← checkReg r
    let t ← s.pushByte (s.getReg d)
    pure (t.advance 2)

/-- POP r (R140): the register takes the byte at SP, and then SP, as it is after that write, is checked and
incremented. -/
def execPop (r : Byte) (s : State) : Result :=
  finish (.pop r) s do
    let d ← checkReg r
    let t ← (s.setReg d (s.readMem s.sp)).popSp
    pure (t.advance 2)

end Sys2Proof.Machine
end

