-- ==== Sys2Proof/Machine/Subroutine.lean ====
section
/-! DEFINITION. Subroutine call and return: CALL (R150) and RET (R156). -/

namespace Sys2Proof.Machine

/-- `ret <- p + 2`, the address just after the CALL, which must fit an address (R150). -/
def State.returnAddress (s : State) : Except CoreError Byte :=
  if s.pc.toNat + 2 > 255 then .error (.outOfBounds .returnAddress (s.pc.toNat + 2))
  else .ok (BitVec.ofNat 8 (s.pc.toNat + 2))

/-- CALL r (R150): the target register is read after the push, so CALL R7 jumps to the new SP. -/
def execCall (r : Byte) (s : State) : Result :=
  finish (.call r) s do
    let d ← checkReg r
    let ret ← s.returnAddress
    let t ← s.pushByte ret
    pure (t.setPc ((t.getReg d).setWidth 9))

/-- RET (R156): the byte at SP becomes the pc. -/
def execRet (s : State) : Result :=
  finish .ret s do
    let t ← s.popSp
    pure (t.setPc ((s.readMem s.sp).setWidth 9))

end Sys2Proof.Machine
end

