-- ==== Sys2Proof/Machine/System.lean ====
section
/-! DEFINITION. The only system instruction, HLT (R101, R179). -/

namespace Sys2Proof.Machine

/-- HLT (R101): phase becomes Halted; the pc keeps the address of the HLT. -/
def execHlt (s : State) : Result :=
  finish .hlt s (.ok (s.setPhase .halted))

end Sys2Proof.Machine
end

