-- ==== Sys2Proof/Machine/Flags.lean ====
section
/-! DEFINITION. The core has no status flags and no condition codes, and no instruction sets or reads one (R30): there
is no flag computation to write. The one flag the source names is the running flag, computed from the phase (R28). -/

namespace Sys2Proof.Machine

/-- `running = (phase = Running)` (R28). -/
def State.running (s : State) : Bool := decide (s.phase = .running)

end Sys2Proof.Machine
end

