-- ==== Sys2Proof/Machine/Fetch.lean ====
section
/-! DEFINITION. Fetching an instruction at the pc (R91 to R94), what a step does outside Running, and placing a word
where the next fetch finds it. -/

namespace Sys2Proof.Machine

/-- A raise before a handler runs: the opcode to record, if it was fetched, and the error (R92 to R94). -/
structure FetchRaise where
  opcode : Option Byte
  error  : CoreError
  deriving DecidableEq, Repr

/-- The bytes of memory from the pc on, at most the longest instruction's three, and none past address 255
(R52, R71). -/
def State.fetchBytes (s : State) : List Byte :=
  (((List.range 3).map (fun k => s.pc.toNat + k)).filter (fun a => decide (a < Config.memSize))).map s.mem.read

/-- The instruction at the pc, or what its fetch raises: FetchAddress for an opcode address above 255 (R92),
IllegalInstruction for an opcode not in the mapping (R94), then FetchAddress for the lowest operand address above 255
(R93). -/
def State.fetch (s : State) : Except FetchRaise Instr :=
  match decode s.fetchBytes with
  | .ok (i, _) => .ok i
  | .error .noOpcode => .error ⟨none, .outOfBounds .fetchAddress s.pc.toNat⟩
  | .error (.illegalOpcode op) => .error ⟨some op, .illegalInstruction⟩
  | .error (.missingOperand op k) => .error ⟨some op, .outOfBounds .fetchAddress (s.pc.toNat + k : Nat)⟩

/-- What a step does in Idle, Halted and Faulted: nothing. No iteration begins there (R90), Halted and Faulted are left
only by reset (R28, R40), and "steps do nothing there" (92_eei_decisions.md D9). DESIGN CHOICE, safe: log entry 1. -/
def State.outsideRunning (s : State) : Result := .next s

/-- `s` with `bytes` in the cells from the pc on, none past address 255. -/
def State.placeBytes (s : State) (bytes : List Byte) : State :=
  { s with
    mem := (bytes.zipIdx.filter (fun b => decide (s.pc.toNat + b.2 < Config.memSize))).foldl
      (fun m b => m.write (s.pc.toNat + b.2) b.1) s.mem }

/-- `s` in phase Running, so that its next step fetches: from Idle by what start does (R39); from Halted and Faulted,
where the core itself has no way on, by the phase alone. DESIGN CHOICE: log entry 2. -/
def State.readyToFetch (s : State) : State :=
  match s.phase with
  | .running => s
  | .idle => (s.setPhase .running).setSp Config.spInit
  | .halted => { s with phase := .running, fault := none }
  | .faulted => { s with phase := .running, fault := none }

end Sys2Proof.Machine
end

