-- ==== Sys2Proof/Machine/Step.lean ====
section
/-! DEFINITION. One step of the core: one iteration of the execution loop (R90, R98), and the placing of a word that the
very next step runs. -/

namespace Sys2Proof.Machine

/-- One iteration (R90 to R97): while Running, fetch and dispatch, and run the instruction or take what the fetch
raised; in any other phase no iteration begins. -/
def step (s : State) : Host.Outcome State Fault Refusal :=
  match s.phase with
  | .running =>
    match s.fetch with
    | .ok i => exec i s
    | .error e => .next (s.raise e.opcode e.error)
  | .idle => s.outsideRunning
  | .halted => s.outsideRunning
  | .faulted => s.outsideRunning

/-- `s` with a table word stored at the pc and the core started, so that the next step runs it (log entry 2). -/
def State.withFetchWord (s : State) (nbits w : Nat) : State :=
  (s.placeBytes (tableBytes nbits w)).readyToFetch

end Sys2Proof.Machine
end

