-- ==== Sys2Proof/Machine/HostPort.lean ====
section
/-! DEFINITION. The block interface (R36 to R40, R58): what the host can do to the core, each act as a function on the
state, a labelled transition of the host. -/

namespace Sys2Proof.Machine

/-- The host write port: while Idle it sets one cell; in any other phase it does nothing (R38). -/
def State.hostWrite (s : State) (a v : Byte) : State :=
  match s.phase with
  | .idle => s.writeMem a v
  | .running => s
  | .halted => s
  | .faulted => s

/-- A run of host writes of `bytes` to the addresses from `a` on (R38, R58). -/
def State.hostWrites (s : State) : Nat → List Byte → State
  | _, [] => s
  | a, b :: rest => (s.hostWrite (BitVec.ofNat 8 a) b).hostWrites (a + 1) rest

/-- Loading a program image from address 0; an image longer than the memory is refused as a whole (R58). -/
def State.load (s : State) (image : List Byte) : State :=
  if image.length > Config.maxImageLen then s else s.hostWrites 0 image

/-- Start: from Idle, phase becomes Running and SP 0xF4; in any other phase no effect (R39). -/
def State.start (s : State) : State :=
  match s.phase with
  | .idle => (s.setPhase .running).setSp Config.spInit
  | .running => s
  | .halted => s
  | .faulted => s

/-- What the host can do to the core (R16). -/
inductive HostAction where
  /-- the host write port (R38) -/
  | write (a v : Byte)
  /-- a whole image through that port (R58) -/
  | load (image : List Byte)
  /-- the start input (R39) -/
  | start
  /-- the reset input (R40) -/
  | reset
  deriving DecidableEq, Repr

/-- The state after an act of the host. -/
def State.host (s : State) : HostAction → State
  | .write a v => s.hostWrite a v
  | .load image => s.load image
  | .start => s.start
  | .reset => State.reset

/-- The status port: the phase and, in Faulted, the fault record (R37). -/
def State.statusPort (s : State) : Phase × Option FaultRecord :=
  match s.phase with
  | .idle => (.idle, none)
  | .running => (.running, none)
  | .halted => (.halted, none)
  | .faulted => (.faulted, s.fault)

/-- The error code on the status port, 0 when there is no record (R170). -/
def State.faultNumber (s : State) : Nat :=
  match s.fault with
  | none => 0
  | some r => r.code.number

/-- The events on the output port between `s` and a later state `t`, in order (R36). -/
def outputEvents (s t : State) : List Byte := t.out.drop s.out.length

end Sys2Proof.Machine
end

