-- ==== Sys2Proof/Machine/Run.lean ====
section
/-! DEFINITION. A run of the core under a step budget (R90, R99, R102). -/

namespace Sys2Proof.Machine

/-- `while phase = Running: Step()` (R90), for at most `n` steps. `none` says that the budget is exhausted and there is
no result, which is never read as halted (R102). -/
def run : Nat → State → Option State
  | 0, s => if s.running then none else some s
  | n + 1, s =>
    if s.running then
      match step s with
      | .next t => run n t
      | .fault f => nomatch f
      | .refused _ => none
    else some s

/-- Reset, load, start and run (R202). -/
def runImage (n : Nat) (image : List Byte) : Option State := run n ((State.reset.load image).start)

/-- The observation of a run that ended: the final state, its fault record included, and the output (R99). -/
def observation (final : State) : State × List Byte := (final, final.out)

end Sys2Proof.Machine
end

