-- ==== Sys2Proof/Machine/Text.lean ====
section
/-! DEFINITION. The two textual forms the spec gives: the loader's text image (R59), which lies outside the core, and the
syntax of an instruction in a listing (R81). The step uses neither. -/

namespace Sys2Proof.Machine.Text

/-- White space of an image line. DESIGN CHOICE: log entry 6. -/
def isBlank (c : Char) : Bool := c == ' ' || c == '\t' || c == '\r'

/-- A line without its comment, which begins with `#`, and without white space at either end (R59). -/
def lineBody (line : List Char) : List Char :=
  (((line.takeWhile (fun c => c != '#')).dropWhile isBlank).reverse.dropWhile isBlank).reverse

/-- The number that binary digits stand for, continuing from `acc`; `none` at any other character. -/
def binaryDigits : Nat → List Char → Option Nat
  | acc, [] => some acc
  | acc, c :: rest =>
    if c = '0' then binaryDigits (2 * acc) rest else if c = '1' then binaryDigits (2 * acc + 1) rest else none

/-- What an image line gives. -/
inductive Line where
  /-- a blank line or a comment alone -/
  | skipped
  /-- one instruction byte -/
  | byte (b : Byte)
  /-- the loader's MalformedInstructionLiteral (R5, R59) -/
  | malformed
  deriving DecidableEq, Repr

/-- One line: an 8-character binary literal, or nothing (R59). -/
def readLine (line : List Char) : Line :=
  match lineBody line with
  | [] => .skipped
  | body =>
    if body.length = 8 then
      match binaryDigits 0 body with
      | some n => .byte (BitVec.ofNat 8 n)
      | none => .malformed
    else .malformed

/-- The image of a text, its bytes in file order; `none` if a line is malformed (R59). -/
def readImage : List (List Char) → Option (List Byte)
  | [] => some []
  | line :: rest =>
    match readLine line with
    | .skipped => readImage rest
    | .byte b => (readImage rest).map (fun image => b :: image)
    | .malformed => none

/-- The 8-character binary literal of a byte, bit 7 first (R59). -/
def writeLine (b : Byte) : List Char :=
  [7, 6, 5, 4, 3, 2, 1, 0].map (fun k => if b.getLsbD k then '1' else '0')

/-- `Rn` (R81). -/
def registerName (r : Byte) : String := "R" ++ toString r.toNat

/-- An instruction in R81's form, the immediate in decimal. Only a well-formed instruction has one there. -/
def listing : Instr → String
  | .hlt => "HLT"
  | .ret => "RET"
  | .push r => "PUSH " ++ registerName r
  | .pop r => "POP " ++ registerName r
  | .prn r => "PRN " ++ registerName r
  | .call r => "CALL " ++ registerName r
  | .ldi r imm => "LDI " ++ registerName r ++ "," ++ toString imm.toNat
  | .add a b => "ADD " ++ registerName a ++ "," ++ registerName b
  | .mul a b => "MUL " ++ registerName a ++ "," ++ registerName b

end Sys2Proof.Machine.Text
end

