-- ==== Sys2Proof/Safety.lean ====
section
/-! DEFINITION. The terms claims use: what the spec says of a state that is about to run an instruction, of a fault
record, of a state a run can reach, and of what two states have in common. Numbers stand here as the spec's tables have
them, not through the model's decoder or meanings. -/

namespace Sys2Proof.Machine

/-! ### The opcode map as R75 prints it -/

/-- The nine opcode values of R75. -/
def specOpcodes : List Byte := [0x01, 0x11, 0x45, 0x46, 0x47, 0x50, 0x82, 0xA0, 0xA2]

/-- The length column of R75's table. -/
def specLength (op : Byte) : Nat :=
  if op ∈ [(0x01 : Byte), 0x11] then 1 else if op ∈ [(0x45 : Byte), 0x46, 0x47, 0x50] then 2 else 3

/-- Which operand bytes of R75's table are register indices: byte 1, or bytes 1 and 2, counted from the opcode. -/
def specRegisterBytes (op : Byte) : List Nat :=
  if op ∈ [(0xA0 : Byte), 0xA2] then [1, 2] else if op ∈ [(0x01 : Byte), 0x11] then [] else [1]

/-! ### A state about to run an instruction -/

/-- Byte `k` of the instruction at the pc, as memory holds it (R71). -/
def State.byteAt (s : State) (k : Nat) : Byte := s.mem.read (s.pc.toNat + k)

/-- An iteration begins and the opcode it fetches is `op` (R90, R92). -/
abbrev State.startsWith (s : State) (op : Byte) : Prop :=
  s.phase = .running ∧ s.pc.toNat ≤ 255 ∧ s.byteAt 0 = op

/-! ### Faults -/

/-- `s` after the fault entry of R172 with record `r`: phase and fault change, nothing else. -/
def State.withFault (s : State) (r : FaultRecord) : State := { s with phase := .faulted, fault := some r }

/-- The record of an OutOfBoundsAddress raised at `s` (R29, R171). -/
def State.oobRecord (s : State) (opcode : Option Byte) (kind : OobKind) (value : Int) : FaultRecord :=
  { code := .outOfBoundsAddress, pc := s.pc, opcode := opcode, kind := some kind, value := some value }

/-- The record of an IllegalInstruction raised at `s` (R29, R94). -/
def State.illegalRecord (s : State) (op : Byte) : FaultRecord :=
  { code := .illegalInstruction, pc := s.pc, opcode := some op, kind := none, value := none }

/-- The result of a step or a meaning that raises an OutOfBoundsAddress at `s`. -/
def State.oobFault (s : State) (opcode : Option Byte) (kind : OobKind) (value : Int) : Result :=
  .next (s.withFault (s.oobRecord opcode kind value))

/-- The records R29, R170 and R171 allow: an opcode fetch at 256; an illegal opcode; a missing operand byte; a register
index above 7; the stack pointer leaving its range; CALL's return address. -/
inductive LegalRecord : FaultRecord → Prop where
  | opcodeFetch : LegalRecord ⟨.outOfBoundsAddress, 256, none, some .fetchAddress, some 256⟩
  | illegal (pc : PcWord) (op : Byte) (hpc : pc.toNat ≤ 255) (hop : op ∉ specOpcodes) :
      LegalRecord ⟨.illegalInstruction, pc, some op, none, none⟩
  | operandFetch (pc : PcWord) (op : Byte) (hpc : pc.toNat ≤ 255) (hop : op ∈ specOpcodes)
      (hlen : 256 < pc.toNat + specLength op) :
      LegalRecord ⟨.outOfBoundsAddress, pc, some op, some .fetchAddress, some 256⟩
  | registerIndex (pc : PcWord) (op i : Byte) (hpc : pc.toNat + specLength op ≤ 256) (hop : op ∈ specOpcodes)
      (hreg : specRegisterBytes op ≠ []) (hi : 7 < i.toNat) :
      LegalRecord ⟨.outOfBoundsAddress, pc, some op, some .registerIndex, some i.toNat⟩
  | stackBelow (pc : PcWord) (op : Byte) (hpc : pc.toNat + specLength op ≤ 256) (hop : op ∈ [(0x45 : Byte), 0x50]) :
      LegalRecord ⟨.outOfBoundsAddress, pc, some op, some .stackPointer, some (-1)⟩
  | stackAbove (pc : PcWord) (op : Byte) (hpc : pc.toNat + specLength op ≤ 256) (hop : op ∈ [(0x46 : Byte), 0x11]) :
      LegalRecord ⟨.outOfBoundsAddress, pc, some op, some .stackPointer, some 256⟩
  | returnAddress : LegalRecord ⟨.outOfBoundsAddress, 0xFE, some 0x50, some .returnAddress, some 256⟩

/-- The first check of R173 that fails for the instruction at the pc, as the record it leaves; `none` when none of the
six fails. -/
def firstError (s : State) : Option FaultRecord :=
  let op := s.byteAt 0
  if 255 < s.pc.toNat then some (s.oobRecord none .fetchAddress s.pc.toNat)
  else if op ∉ specOpcodes then some (s.illegalRecord op)
  else if 256 < s.pc.toNat + specLength op then some (s.oobRecord (some op) .fetchAddress 256)
  else
    match (specRegisterBytes op).find? (fun k => decide (7 < (s.byteAt k).toNat)) with
    | some k => some (s.oobRecord (some op) .registerIndex (s.byteAt k).toNat)
    | none =>
      if op = 0x50 ∧ 255 < s.pc.toNat + 2 then some (s.oobRecord (some op) .returnAddress (s.pc.toNat + 2))
      else if (op = 0x45 ∨ op = 0x50) ∧ s.sp = 0 then some (s.oobRecord (some op) .stackPointer (-1))
      else if (op = 0x11 ∨ op = 0x46 ∧ s.byteAt 1 ≠ 7) ∧ s.sp = 255 then
        some (s.oobRecord (some op) .stackPointer 256)
      else if op = 0x46 ∧ s.byteAt 1 = 7 ∧ s.mem.read s.sp.toNat = 255 then
        some (s.oobRecord (some op) .stackPointer 256)
      else none

/-! ### What two states have in common -/

/-- Every register but those of `d` holds in `t` what it holds in `s`. -/
def SameRegsBut (d : List (Fin 8)) (s t : State) : Prop := ∀ j, j ∉ d → t.getReg j = s.getReg j

/-- Every byte of memory but those at the addresses `slots` reads in `t` as it reads in `s`. -/
def SameMemBut (slots : List Nat) (s t : State) : Prop := ∀ a, a ∉ slots → t.mem.read a = s.mem.read a

/-- `t` is `s` after a fault entry (R172): a record that names the pc of `s`, and no other change. -/
def Raised (s t : State) : Prop := ∃ r : FaultRecord, r.pc = s.pc ∧ t = s.withFault r

/-- Phase and fault record are the same in both. -/
def SameStatus (s t : State) : Prop := t.phase = s.phase ∧ t.fault = s.fault

/-! ### Renaming registers -/

/-- The operand byte that names the renamed register; an index above 7 names none and stays. -/
def renameByte (f : Equiv.Perm (Fin 8)) (b : Byte) : Byte :=
  if h : b.toNat < 8 then BitVec.ofNat 8 (f ⟨b.toNat, h⟩).val else b

/-- The state whose register `f k` holds what register `k` holds in `s`. -/
def State.rename (f : Equiv.Perm (Fin 8)) (s : State) : State :=
  { s with regs := Vector.ofFn (fun k => s.getReg (f.symm k)) }

/-- The result with `g` applied to its next state. -/
def mapResult (g : State → State) : Result → Result
  | .next t => .next (g t)
  | .fault f => .fault f
  | .refused r => .refused r

/-! ### Reachable states and their invariant -/

/-- The states of a core whose host does only what R16 says, at any time. -/
inductive Reachable : State → Prop where
  | reset : Reachable State.reset
  | host (s : State) (a : HostAction) (h : Reachable s) : Reachable (s.host a)
  | step (s t : State) (h : Reachable s) (hs : step s = .next t) : Reachable t

/-- What holds of every state of a run, and is kept by every step and every act of the host. -/
structure Inv (s : State) : Prop where
  /-- memory is in its canonical form, within the addresses 0 to 255 (R50) -/
  memory : s.mem.wf = true
  /-- the pc is 0 to 256 (R25) -/
  pcRange : s.pc.toNat ≤ 256
  /-- "`fault` is `none` exactly when `phase` is not Faulted" (R29) -/
  faultIff : s.fault = none ↔ s.phase ≠ .faulted
  /-- a record is one R171 lists -/
  record : ∀ r, s.fault = some r → LegalRecord r
  /-- before start only memory may differ from construction (R38, R41) -/
  idle : s.phase = .idle → s.regs = State.reset.regs ∧ s.pc = State.reset.pc ∧ s.out = State.reset.out

end Sys2Proof.Machine
end

