-- ==== Sys2Proof/Certificates/Slice0/Obligations.lean ====
section
/-! DEFINITION. The statements for the provers. Each docstring names the rule of spec/ it comes from, and, where that
rule carries the mark of one of the spec's own decisions (92_eei_decisions.md D<n>) or inferences, says so. -/

open Sys2Proof Sys2Proof.Machine

/-! ### Encoding -/

/-- One word of each instruction, written out from R71 and R75, decodes to it (the words are vectors of
95_test_vectors.md). -/
def Obligations.SpecWordsDecode : Prop :=
  decode [0x01] = .ok (.hlt, []) ∧ decode [0x11] = .ok (.ret, []) ∧ decode [0x45, 0x07] = .ok (.push 7, []) ∧
  decode [0x46, 0x02] = .ok (.pop 2, []) ∧ decode [0x47, 0x09] = .ok (.prn 9, []) ∧
  decode [0x50, 0x01] = .ok (.call 1, []) ∧ decode [0x82, 0x03, 0xFF] = .ok (.ldi 3 0xFF, []) ∧
  decode [0xA0, 0x09, 0x0A] = .ok (.add 9 10, []) ∧ decode [0xA2, 0x02, 0x03] = .ok (.mul 2 3, [])

/-- R75: "The opcode map is exactly the nine values", each with its format and operands, compared in all 8 bits; any
other first byte is rejected by name, whatever follows it. -/
def Obligations.OpcodeMapIsExactlyNine : Prop :=
  ∀ (a b : Byte) (rest : List Byte),
    decode (0x01 :: rest) = .ok (.hlt, rest) ∧ decode (0x11 :: rest) = .ok (.ret, rest) ∧
    decode (0x45 :: a :: rest) = .ok (.push a, rest) ∧ decode (0x46 :: a :: rest) = .ok (.pop a, rest) ∧
    decode (0x47 :: a :: rest) = .ok (.prn a, rest) ∧ decode (0x50 :: a :: rest) = .ok (.call a, rest) ∧
    decode (0x82 :: a :: b :: rest) = .ok (.ldi a b, rest) ∧ decode (0xA0 :: a :: b :: rest) = .ok (.add a b, rest) ∧
    decode (0xA2 :: a :: b :: rest) = .ok (.mul a b, rest) ∧
    ∀ op : Byte, op ∉ specOpcodes → decode (op :: rest) = .error (.illegalOpcode op)

/-- Decode and encode agree on every instruction, with every operand at every value and whatever bytes follow. -/
def Obligations.DecodeEncodeRoundTrip : Prop :=
  ∀ (i : Instr) (rest : List Byte), decode (encode i ++ rest) = .ok (i, rest)

/-- R70: an instruction is its opcode byte and zero, one or two operand bytes immediately after it, and the opcode alone
fixes how many. -/
def Obligations.LengthIsFixedByOpcode : Prop :=
  ∀ (bytes rest : List Byte) (i : Instr), decode bytes = .ok (i, rest) →
    ∃ (op : Byte) (operands : List Byte), bytes = op :: (operands ++ rest) ∧ op = i.opcode ∧ operands = i.operands ∧
      operands.length ≤ 2 ∧ 1 + operands.length = specLength op

/-- The cross-check of R77, an inference the spec marks as its own: bits 7 and 6 of an opcode are its operand count, bit
5 marks ADD and MUL, bit 4 marks CALL and RET. -/
def Obligations.OpcodeBitsAgreeWithLengths : Prop :=
  ∀ i : Instr, (encode i).length = (i.opcode >>> 6).toNat + 1 ∧
    (i.opcode.getLsbD 5 = true ↔ i.mnemonic = .add ∨ i.mnemonic = .mul) ∧
    (i.opcode.getLsbD 4 = true ↔ i.mnemonic = .call ∨ i.mnemonic = .ret)

/-! ### Fetch, dispatch and step -/

/-- While Running, when the bytes from the pc on decode to an instruction, the step is that instruction run at that
state: the step adds nothing around it, the pc being moved by the instruction itself (R26, R91). -/
def Obligations.StepRunsDecodedInstruction : Prop :=
  ∀ (s : State) (i : Instr) (rest : List Byte),
    s.phase = .running → decode s.fetchBytes = .ok (i, rest) → step s = exec i s

/-- While Running, when memory holds the bytes of an instruction at the pc and the addresses after it, the step is that
instruction run at that state (R71, R91, R95). -/
def Obligations.StepRunsInstructionInMemory : Prop :=
  ∀ (s : State) (i : Instr),
    s.phase = .running → s.pc.toNat + (encode i).length ≤ 256 →
    (∀ k b, (encode i)[k]? = some b → s.byteAt k = b) → step s = exec i s

/-- R94 and R78: an opcode that is none of the nine raises IllegalInstruction with the pc and the opcode, before any
operand byte is read (so at address 255, too). -/
def Obligations.IllegalOpcodeFaults : Prop :=
  ∀ s : State, s.phase = .running → s.pc.toNat ≤ 255 → s.byteAt 0 ∉ specOpcodes →
    step s = .next (s.withFault (s.illegalRecord (s.byteAt 0)))

/-- The opcode fetch of R92, which follows the spec's decision D3: at a pc above 255 it raises FetchAddress with the pc
as value and no opcode recorded. R25 and R92 have a pc of 0 to 256, so the spec's own case is 256, with value 256; that the
values 257 to 511 of the 9-bit word, which no run reaches, raise with that pc as value is the model's choice, log
entry 8. -/
def Obligations.OpcodeFetchPastMemoryFaults : Prop :=
  ∀ s : State, s.phase = .running → 255 < s.pc.toNat → step s = s.oobFault none .fetchAddress s.pc.toNat

/-- The operand fetch of R93, which follows the spec's decisions D7 and D17: an instruction one of whose operand bytes
lies past address 255 raises FetchAddress with value 256, whatever its register operands are. -/
def Obligations.MissingOperandFaults : Prop :=
  ∀ s : State, s.phase = .running → s.pc.toNat ≤ 255 → s.byteAt 0 ∈ specOpcodes →
    256 < s.pc.toNat + specLength (s.byteAt 0) → step s = s.oobFault (some (s.byteAt 0)) .fetchAddress 256

/-- In Idle, Halted and Faulted no iteration begins (R90); that the step function then answers the same state is the
model's choice, log entry 1, after "steps do nothing there" of the spec's decision D9. -/
def Obligations.StepOutsideRunningChangesNothing : Prop :=
  ∀ s : State, s.phase ≠ .running → step s = .next s

/-- The totality of R98, an inference the spec marks as its own: while Running a step answers a next state, which is
Running, Halted or Faulted; there is no fault and no refusal. -/
def Obligations.StepIsTotal : Prop :=
  ∀ s : State, s.phase = .running →
    ∃ t, step s = .next t ∧ (t.phase = .running ∨ t.phase = .halted ∨ t.phase = .faulted)

/-- The priority of R173, which follows the spec's decision D7: the step of a Running core raises exactly when one of
the six checks fails, and what it records is the first one that does; otherwise nothing is raised. At a pc of 257 to 511,
which no run reaches, the value it records is the model's choice, log entry 8. -/
def Obligations.FirstFailingCheckIsReported : Prop :=
  ∀ s : State, s.phase = .running →
    (∀ r, firstError s = some r → step s = .next (s.withFault r)) ∧
    (firstError s = none → ∃ t, step s = .next t ∧ t.phase ≠ .faulted ∧ t.fault = s.fault)

/-! ### The rule of each instruction, as one step of a Running core -/

/-- R110, LDI: the missing operand byte, the register index, and the effect. Nothing else changes. -/
def Obligations.LdiRule : Prop :=
  ∀ s : State, s.startsWith 0x82 →
    (255 < s.pc.toNat + 2 → step s = s.oobFault (some 0x82) .fetchAddress 256) ∧
    (s.pc.toNat + 2 ≤ 255 →
      (7 < (s.byteAt 1).toNat → step s = s.oobFault (some 0x82) .registerIndex (s.byteAt 1).toNat) ∧
      (∀ d : Fin 8, (s.byteAt 1).toNat = d.val →
        step s = .next { s with regs := s.regs.set d (s.byteAt 2), pc := s.pc + 3 }))

/-- R115, PRN: the missing operand byte, the register index, and the effect. A faulting PRN emits nothing. -/
def Obligations.PrnRule : Prop :=
  ∀ s : State, s.startsWith 0x47 →
    (255 < s.pc.toNat + 1 → step s = s.oobFault (some 0x47) .fetchAddress 256) ∧
    (s.pc.toNat + 1 ≤ 255 →
      (7 < (s.byteAt 1).toNat → step s = s.oobFault (some 0x47) .registerIndex (s.byteAt 1).toNat) ∧
      (∀ d : Fin 8, (s.byteAt 1).toNat = d.val →
        step s = .next { s with out := s.out ++ [s.getReg d], pc := s.pc + 2 }))

/-- R122, ADD: the missing operand bytes, the two register indices with `a` checked first, and the sum modulo 256 in the
first register. -/
def Obligations.AddRule : Prop :=
  ∀ s : State, s.startsWith 0xA0 →
    (255 < s.pc.toNat + 2 → step s = s.oobFault (some 0xA0) .fetchAddress 256) ∧
    (s.pc.toNat + 2 ≤ 255 →
      (7 < (s.byteAt 1).toNat → step s = s.oobFault (some 0xA0) .registerIndex (s.byteAt 1).toNat) ∧
      (∀ d : Fin 8, (s.byteAt 1).toNat = d.val →
        (7 < (s.byteAt 2).toNat → step s = s.oobFault (some 0xA0) .registerIndex (s.byteAt 2).toNat) ∧
        (∀ e : Fin 8, (s.byteAt 2).toNat = e.val →
          ∃ v : Byte, v.toNat = ((s.getReg d).toNat + (s.getReg e).toNat) % 256 ∧
            step s = .next { s with regs := s.regs.set d v, pc := s.pc + 3 })))

/-- R126, MUL: as ADD, with the product modulo 256. -/
def Obligations.MulRule : Prop :=
  ∀ s : State, s.startsWith 0xA2 →
    (255 < s.pc.toNat + 2 → step s = s.oobFault (some 0xA2) .fetchAddress 256) ∧
    (s.pc.toNat + 2 ≤ 255 →
      (7 < (s.byteAt 1).toNat → step s = s.oobFault (some 0xA2) .registerIndex (s.byteAt 1).toNat) ∧
      (∀ d : Fin 8, (s.byteAt 1).toNat = d.val →
        (7 < (s.byteAt 2).toNat → step s = s.oobFault (some 0xA2) .registerIndex (s.byteAt 2).toNat) ∧
        (∀ e : Fin 8, (s.byteAt 2).toNat = e.val →
          ∃ v : Byte, v.toNat = ((s.getReg d).toNat * (s.getReg e).toNat) % 256 ∧
            step s = .next { s with regs := s.regs.set d v, pc := s.pc + 3 })))

/-- PUSH, the rule R135, whose stack pointer check is the spec's decision D5 and whose value for R7 is settled by
90_conflicts.md C4: the old value of the register goes to the cell below SP, and SP falls by 1. -/
def Obligations.PushRule : Prop :=
  ∀ s : State, s.startsWith 0x45 →
    (255 < s.pc.toNat + 1 → step s = s.oobFault (some 0x45) .fetchAddress 256) ∧
    (s.pc.toNat + 1 ≤ 255 →
      (7 < (s.byteAt 1).toNat → step s = s.oobFault (some 0x45) .registerIndex (s.byteAt 1).toNat) ∧
      (∀ d : Fin 8, (s.byteAt 1).toNat = d.val →
        (s.sp = 0 → step s = s.oobFault (some 0x45) .stackPointer (-1)) ∧
        (s.sp ≠ 0 → step s = .next { s with
          regs := s.regs.set 7 (s.sp - 1), mem := s.mem.write (s.sp - 1).toNat (s.getReg d), pc := s.pc + 2 })))

/-- POP, the rule R140, whose stack pointer check is the spec's decision D5 and whose form POP R7 is D11: the register
takes the byte at SP, then SP rises by 1; for R7 it is the popped byte that rises. -/
def Obligations.PopRule : Prop :=
  ∀ s : State, s.startsWith 0x46 →
    (255 < s.pc.toNat + 1 → step s = s.oobFault (some 0x46) .fetchAddress 256) ∧
    (s.pc.toNat + 1 ≤ 255 →
      (7 < (s.byteAt 1).toNat → step s = s.oobFault (some 0x46) .registerIndex (s.byteAt 1).toNat) ∧
      (∀ d : Fin 8, d ≠ 7 → (s.byteAt 1).toNat = d.val →
        (s.sp = 255 → step s = s.oobFault (some 0x46) .stackPointer 256) ∧
        (s.sp ≠ 255 → step s = .next { s with
          regs := (s.regs.set d (s.mem.read s.sp.toNat)).set 7 (s.sp + 1), pc := s.pc + 2 })) ∧
      (s.byteAt 1 = 7 →
        (s.mem.read s.sp.toNat = 255 → step s = s.oobFault (some 0x46) .stackPointer 256) ∧
        (s.mem.read s.sp.toNat ≠ 255 → step s = .next { s with
          regs := s.regs.set 7 (s.mem.read s.sp.toNat + 1), pc := s.pc + 2 })))

/-- CALL, the rule R150, whose checks are the spec's decisions D4 and D5 and whose form CALL R7 is D11: p + 2 is pushed
and the pc takes the register's value, for R7 the new SP. -/
def Obligations.CallRule : Prop :=
  ∀ s : State, s.startsWith 0x50 →
    (255 < s.pc.toNat + 1 → step s = s.oobFault (some 0x50) .fetchAddress 256) ∧
    (s.pc.toNat + 1 ≤ 255 →
      (7 < (s.byteAt 1).toNat → step s = s.oobFault (some 0x50) .registerIndex (s.byteAt 1).toNat) ∧
      (∀ d : Fin 8, (s.byteAt 1).toNat = d.val →
        (255 < s.pc.toNat + 2 → step s = s.oobFault (some 0x50) .returnAddress 256) ∧
        (s.pc.toNat + 2 ≤ 255 → s.sp = 0 → step s = s.oobFault (some 0x50) .stackPointer (-1)) ∧
        (s.pc.toNat + 2 ≤ 255 → s.sp ≠ 0 → step s = .next { s with
          regs := s.regs.set 7 (s.sp - 1)
          mem := s.mem.write (s.sp - 1).toNat (BitVec.ofNat 8 (s.pc.toNat + 2))
          pc := (if d = 7 then s.sp - 1 else s.getReg d).setWidth 9 })))

/-- RET, the rule R156, whose stack pointer check is the spec's decision D5: the byte at SP becomes the pc and SP rises
by 1, at any address of the RET. -/
def Obligations.RetRule : Prop :=
  ∀ s : State, s.startsWith 0x11 →
    (s.sp = 255 → step s = s.oobFault (some 0x11) .stackPointer 256) ∧
    (s.sp ≠ 255 → step s = .next { s with
      regs := s.regs.set 7 (s.sp + 1), pc := (s.mem.read s.sp.toNat).setWidth 9 })

/-- HLT, the rule R101, which leaves the pc by the spec's decision D10: phase becomes Halted and nothing else changes,
at any address of the HLT. -/
def Obligations.HltRule : Prop :=
  ∀ s : State, s.startsWith 0x01 → step s = .next { s with phase := .halted }

/-- The end of a run by R96: a halt takes effect after the instruction, and the loop's next check ends the run in the
state HLT left, with no further fetch. That the step function then answers the same state is not R96 but the model's
choice, log entry 1, after the spec's decision D9. -/
def Obligations.HaltEndsTheLoop : Prop :=
  ∀ (s t : State) (n : Nat), s.startsWith 0x01 → step s = .next t →
    t.phase = .halted ∧ run (n + 1) s = some t ∧ step t = .next t

/-! ### Every instruction completes, and where -/

/-- LDI, PRN and HLT answer the next state their rules give, for every register they can name. -/
def Obligations.LdiPrnHltComplete : Prop :=
  ∀ (s : State) (r imm : Byte) (d : Fin 8), r.toNat = d.val →
    exec (.ldi r imm) s = .next { s with regs := s.regs.set d imm, pc := s.pc + 3 } ∧
    exec (.prn r) s = .next { s with out := s.out ++ [s.getReg d], pc := s.pc + 2 } ∧
    exec .hlt s = .next { s with phase := .halted }

/-- ADD and MUL answer the next state their rules give, for every pair of registers, the same one twice among them. -/
def Obligations.AddMulComplete : Prop :=
  ∀ (s : State) (a b : Byte) (d e : Fin 8), a.toNat = d.val → b.toNat = e.val →
    exec (.add a b) s = .next { s with regs := s.regs.set d (s.getReg d + s.getReg e), pc := s.pc + 3 } ∧
    exec (.mul a b) s = .next { s with regs := s.regs.set d (s.getReg d * s.getReg e), pc := s.pc + 3 }

/-- PUSH and POP answer the next state their rules give wherever SP (for POP R7 the popped byte) stays in range. -/
def Obligations.PushPopComplete : Prop :=
  ∀ (s : State) (r : Byte) (d : Fin 8), r.toNat = d.val →
    (s.sp ≠ 0 → exec (.push r) s = .next { s with
      regs := s.regs.set 7 (s.sp - 1), mem := s.mem.write (s.sp - 1).toNat (s.getReg d), pc := s.pc + 2 }) ∧
    (d ≠ 7 → s.sp ≠ 255 → exec (.pop r) s = .next { s with
      regs := (s.regs.set d (s.mem.read s.sp.toNat)).set 7 (s.sp + 1), pc := s.pc + 2 }) ∧
    (d = 7 → s.mem.read s.sp.toNat ≠ 255 → exec (.pop r) s = .next { s with
      regs := s.regs.set 7 (s.mem.read s.sp.toNat + 1), pc := s.pc + 2 })

/-- CALL and RET answer the next state their rules give wherever the return address and SP stay in range. -/
def Obligations.CallRetComplete : Prop :=
  ∀ s : State,
    (∀ (r : Byte) (d : Fin 8), r.toNat = d.val → s.pc.toNat + 2 ≤ 255 → s.sp ≠ 0 →
      exec (.call r) s = .next { s with
        regs := s.regs.set 7 (s.sp - 1)
        mem := s.mem.write (s.sp - 1).toNat (BitVec.ofNat 8 (s.pc.toNat + 2))
        pc := (if d = 7 then s.sp - 1 else s.getReg d).setWidth 9 }) ∧
    (s.sp ≠ 255 → exec .ret s = .next { s with
      regs := s.regs.set 7 (s.sp + 1), pc := (s.mem.read s.sp.toNat).setWidth 9 })

/-! ### Where an instruction raises -/

/-- R9: CheckReg passes the indices 0 to 7, and for a register operand above 7 each of the seven instructions that have
one raises RegisterIndex with that index; ADD and MUL check `a` before `b`. -/
def Obligations.RegisterIndexAboveSevenRaises : Prop :=
  (∀ (b : Byte) (d : Fin 8), b.toNat = d.val → checkReg b = .ok d) ∧
  ∀ (s : State) (r b : Byte), 7 < r.toNat →
    exec (.ldi r b) s = s.oobFault (some 0x82) .registerIndex r.toNat ∧
    exec (.prn r) s = s.oobFault (some 0x47) .registerIndex r.toNat ∧
    exec (.push r) s = s.oobFault (some 0x45) .registerIndex r.toNat ∧
    exec (.pop r) s = s.oobFault (some 0x46) .registerIndex r.toNat ∧
    exec (.call r) s = s.oobFault (some 0x50) .registerIndex r.toNat ∧
    exec (.add r b) s = s.oobFault (some 0xA0) .registerIndex r.toNat ∧
    exec (.mul r b) s = s.oobFault (some 0xA2) .registerIndex r.toNat ∧
    (b.toNat ≤ 7 → exec (.add b r) s = s.oobFault (some 0xA0) .registerIndex r.toNat ∧
      exec (.mul b r) s = s.oobFault (some 0xA2) .registerIndex r.toNat)

/-! ### Frames -/

/-- LDI, ADD and MUL either raise, which changes phase and fault record alone, or change no register but the first
operand's, and leave memory, output, phase and fault record as they were. -/
def Obligations.RegisterFormsFrame : Prop :=
  ∀ (i : Instr) (r b : Byte) (s t : State), i = .ldi r b ∨ i = .add r b ∨ i = .mul r b → exec i s = .next t →
    Raised s t ∨
    ((∀ j : Fin 8, j.val ≠ r.toNat → t.getReg j = s.getReg j) ∧ SameMemBut [] s t ∧ t.out = s.out ∧ SameStatus s t)

/-- PRN and HLT change no register and no memory; PRN (unless it raises) leaves phase and fault record as they were, and
HLT leaves output, pc and fault record as they were. -/
def Obligations.PrnHltFrame : Prop :=
  (∀ (r : Byte) (s t : State), exec (.prn r) s = .next t →
    Raised s t ∨ (SameRegsBut [] s t ∧ SameMemBut [] s t ∧ SameStatus s t)) ∧
  (∀ s t : State, exec .hlt s = .next t →
    SameRegsBut [] s t ∧ SameMemBut [] s t ∧ t.out = s.out ∧ t.fault = s.fault ∧ t.pc = s.pc)

/-- PUSH and CALL either raise or change no register but the stack pointer, no byte of memory but the one at the slot
the push computes, and leave output, phase and fault record as they were. -/
def Obligations.StoringFormsFrame : Prop :=
  ∀ (i : Instr) (r : Byte) (s t : State), i = .push r ∨ i = .call r → exec i s = .next t →
    Raised s t ∨
    (SameRegsBut [7] s t ∧ (∀ slot, s.pushSlot = .ok slot → SameMemBut [slot.toNat] s t) ∧ t.out = s.out ∧
      SameStatus s t)

/-- POP and RET either raise or change no register but the stack pointer and POP's operand, and leave memory (the popped
cell is not cleared), output, phase and fault record as they were. -/
def Obligations.PopRetFrame : Prop :=
  (∀ (r : Byte) (s t : State), exec (.pop r) s = .next t →
    Raised s t ∨
    ((∀ j : Fin 8, j ≠ 7 → j.val ≠ r.toNat → t.getReg j = s.getReg j) ∧ SameMemBut [] s t ∧ t.out = s.out ∧
      SameStatus s t)) ∧
  (∀ s t : State, exec .ret s = .next t →
    Raised s t ∨ (SameRegsBut [7] s t ∧ SameMemBut [] s t ∧ t.out = s.out ∧ SameStatus s t))

/-! ### Rules of the whole machine -/

/-- The fault entry of R172, which follows the spec's decisions D6 and D8: a step that ends in Faulted changes phase and
fault record alone; the record names the pc and, if it was fetched, the opcode, and (the pc being in its range) is one
of those R171 lists, so never code 3. -/
def Obligations.FaultEntryChangesNothingElse : Prop :=
  ∀ s t : State, s.phase = .running → step s = .next t → t.phase = .faulted →
    ∃ r, t = s.withFault r ∧ r.pc = s.pc ∧
      r.opcode = (if s.pc.toNat ≤ 255 then some (s.byteAt 0) else none) ∧ (s.pc.toNat ≤ 256 → LegalRecord r)

/-- The ALU of R121 and R128, which follow the spec's decisions D2 and D26: sum and product modulo 256, and an error for
any other tag, which no step ever records. -/
def Obligations.AluComputesModulo256 : Prop :=
  (∀ va vb : Byte, ∃ sum product : Byte, alu .add va vb = .ok sum ∧ alu .mul va vb = .ok product ∧
    sum.toNat = (va.toNat + vb.toNat) % 256 ∧ product.toNat = (va.toNat * vb.toNat) % 256) ∧
  (∀ (tag va vb : Byte), alu (.other tag) va vb = .error .unsupportedAluOperation) ∧
  (∀ (s t : State) (r : FaultRecord), s.fault = none → step s = .next t → t.fault = some r →
    r.code ≠ .unsupportedAluOperation)

/-- The transitions of R28, which follow the spec's decision D9: Idle to Running by start, Running to Halted by HLT,
Running to Faulted by a raise, and no other but reset. -/
def Obligations.PhaseTransitions : Prop :=
  (∀ s t : State, step s = .next t → t.phase = s.phase ∨
    (s.startsWith 0x01 ∧ t.phase = .halted) ∨ (s.phase = .running ∧ Raised s t)) ∧
  (∀ (s : State) (a : HostAction), (s.host a).phase = s.phase ∨
    (s.phase = .idle ∧ a = .start ∧ (s.host a).phase = .running) ∨ (a = .reset ∧ s.host a = State.reset))

/-- The ends of a run, by R40 and R184 with the spec's decision D9: in Halted and Faulted neither a step nor an act of
the host but reset changes anything, and reset gives the state of construction. That the step function answers the same
state there is the model's choice, log entry 1. -/
def Obligations.OnlyResetLeavesAnEnd : Prop :=
  ∀ (s : State) (a : HostAction), s.phase = .halted ∨ s.phase = .faulted →
    step s = .next s ∧ (a ≠ .reset → s.host a = s) ∧ s.host .reset = State.reset

/-- R31: the output is empty at construction, each PRN that does not fault appends one byte, the value of its register,
and no other step appends or removes one. -/
def Obligations.OutputGrowsOnlyByPrn : Prop :=
  State.reset.out = [] ∧
  ∀ s t : State, step s = .next t →
    (s.startsWith 0x47 → t.phase ≠ .faulted →
      ∃ d : Fin 8, (s.byteAt 1).toNat = d.val ∧ t.out = s.out ++ [s.getReg d]) ∧
    (¬ s.startsWith 0x47 ∨ t.phase = .faulted → t.out = s.out)

/-- Who writes memory (R50, R66): a step changes a byte of memory only as PUSH or CALL, and only the one just below
SP. -/
def Obligations.OnlyPushAndCallWriteMemory : Prop :=
  ∀ (s t : State) (a : Nat), step s = .next t → t.mem.read a ≠ s.mem.read a →
    (s.startsWith 0x45 ∨ s.startsWith 0x50) ∧ a + 1 = s.sp.toNat

/-- Control transfer (R162): by CALL, to the address its register holds, and by RET, to the address the stack holds;
every other instruction but HLT moves the pc on by its length. The clauses that R162 does not give: HLT leaves the pc
(R26, R101, the spec's decision D10), and CALL reads its register after the push, so CALL R7 goes to the new SP (R150,
the spec's decision D11). -/
def Obligations.ControlTransferOnlyByCallAndRet : Prop :=
  ∀ (s t : State) (op : Byte), s.startsWith op → step s = .next t → t.phase ≠ .faulted →
    (op = 0x50 → ∃ d : Fin 8, (s.byteAt 1).toNat = d.val ∧ t.pc.toNat = (t.getReg d).toNat) ∧
    (op = 0x11 → t.pc.toNat = (s.mem.read s.sp.toNat).toNat) ∧
    (op = 0x01 → t.pc = s.pc) ∧
    (op ≠ 0x50 → op ≠ 0x11 → op ≠ 0x01 → t.pc.toNat = s.pc.toNat + specLength op)

/-- The pc of R25, which follows the spec's decision D3: it stays within 0 to 256, and 256 arises only from an
instruction that ends at address 255. -/
def Obligations.ProgramCounterNeverWraps : Prop :=
  ∀ s t : State, s.phase = .running → s.pc.toNat ≤ 256 → step s = .next t →
    t.pc.toNat ≤ 256 ∧
    (t.pc.toNat = 256 → s.pc.toNat = 256 ∧ t.phase = .faulted ∨ s.pc.toNat + specLength (s.byteAt 0) = 256)

/-- Which registers a step may change (R21, R22): the first operand of LDI, ADD, MUL and POP, and R7 for PUSH, POP, CALL
and RET. -/
def Obligations.StepChangesOnlyItsRegisters : Prop :=
  ∀ (s t : State) (j : Fin 8), step s = .next t → t.getReg j ≠ s.getReg j →
    ∃ op, s.startsWith op ∧
      ((op ∈ [(0x82 : Byte), 0xA0, 0xA2, 0x46] ∧ (s.byteAt 1).toNat = j.val) ∨
       (op ∈ [(0x45 : Byte), 0x46, 0x50, 0x11] ∧ j = 7))

/-- R23: no register but R7 is special. Renaming the registers in an instruction and in a state, by any renaming that
keeps R7, renames the result and changes nothing else; R5 and R6 may so take the place of any of R0 to R4. -/
def Obligations.RegistersButSpAreAlike : Prop :=
  ∀ (f : Equiv.Perm (Fin 8)) (i : Instr) (s : State), f 7 = 7 →
    exec (i.mapRegisters (renameByte f)) (s.rename f) = mapResult (State.rename f) (exec i s)

/-- The hidden side of R32: no instruction reads phase, fault record or output. At two states that differ in these alone
an instruction does the same to registers, memory and pc, emits the same bytes (none unless it is PRN), raises the same
record, and touches phase otherwise only as HLT. -/
def Obligations.StatusAndOutputDoNotSteer : Prop :=
  ∀ (i : Instr) (s : State) (q : Phase) (f : Option FaultRecord) (o : List Byte),
    ∃ t u, exec i s = .next t ∧ exec i { s with phase := q, fault := f, out := o } = .next u ∧
      u.mem = t.mem ∧ u.regs = t.regs ∧ u.pc = t.pc ∧
      (∃ e, t.out = s.out ++ e ∧ u.out = o ++ e ∧ (e = [] ∨ ∃ r, i = .prn r)) ∧
      ((∃ r, t.phase = .faulted ∧ u.phase = .faulted ∧ t.fault = some r ∧ u.fault = some r) ∨
       (t.fault = s.fault ∧ u.fault = f ∧
        ((t.phase = s.phase ∧ u.phase = q) ∨ (i = .hlt ∧ t.phase = .halted ∧ u.phase = .halted))))

/-- The stack discipline of R145, an inference the spec marks as its own: PUSH r and then POP r2 gives register r2 the
value r held, SP being back where it was and every other register unchanged; for POP R7 the pushed value plus 1, with a
raise at 255. -/
def Obligations.PushThenPop : Prop :=
  ∀ (s : State) (r r2 : Byte) (d e : Fin 8), r.toNat = d.val → r2.toNat = e.val → s.sp ≠ 0 →
    ∃ t u, exec (.push r) s = .next t ∧ exec (.pop r2) t = .next u ∧
      (e ≠ 7 → u.getReg e = s.getReg d ∧ u.sp = s.sp ∧ SameRegsBut [e] s u ∧ u.pc = s.pc + 4) ∧
      (e = 7 → s.getReg d ≠ 255 → u.sp = s.getReg d + 1 ∧ SameRegsBut [7] s u) ∧
      (e = 7 → s.getReg d = 255 → u = t.withFault (t.oobRecord (some 0x46) .stackPointer 256))

/-- The round trip of R160, an inference the spec marks as its own: a CALL that does not raise, whose target holds a RET
that does not raise, resumes at the address of the CALL plus 2 with every register as it was, and leaves the return
address in the cell below SP. -/
def Obligations.CallThenRet : Prop :=
  ∀ s t u : State, s.startsWith 0x50 → step s = .next t → t.startsWith 0x11 → step t = .next u → u.phase = .running →
    u.pc.toNat = s.pc.toNat + 2 ∧ u.regs = s.regs ∧ u.out = s.out ∧
    (u.mem.read (s.sp.toNat - 1)).toNat = s.pc.toNat + 2

/-- The fetch coherence of R64, which follows the spec's decision D17: a PUSH that stores just after itself decides what
the very next step runs. -/
def Obligations.PushedByteIsFetchedNext : Prop :=
  ∀ (s t : State) (d : Fin 8), s.startsWith 0x45 → (s.byteAt 1).toNat = d.val → s.sp.toNat = s.pc.toNat + 3 →
    step s = .next t →
    t.byteAt 0 = s.getReg d ∧ (s.getReg d = 0x01 → step t = .next { t with phase := .halted }) ∧
    (s.getReg d ∉ specOpcodes → step t = .next (t.withFault (t.illegalRecord (s.getReg d))))

/-! ### The host's side -/

/-- The load of R58, which follows the spec's decision D21: while Idle an image of at most 256 bytes goes to the
addresses from 0 on and everything else keeps its value; a longer image, or any load outside Idle, changes nothing. -/
def Obligations.LoadRule : Prop :=
  ∀ (s : State) (image : List Byte),
    (256 < image.length → s.load image = s) ∧ (s.phase ≠ .idle → s.load image = s) ∧
    (s.phase = .idle → image.length ≤ 256 →
      (∀ a, (s.load image).mem.read a = image.getD a (s.mem.read a)) ∧
      s.load image = { s with mem := (s.load image).mem })

/-- The host write port of R38, which follows the spec's decisions D13 and D21. -/
def Obligations.HostWriteRule : Prop :=
  ∀ (s : State) (a v : Byte),
    (s.phase = .idle → (∀ b, (s.hostWrite a v).mem.read b = if b = a.toNat then v else s.mem.read b) ∧
      s.hostWrite a v = { s with mem := (s.hostWrite a v).mem }) ∧
    (s.phase ≠ .idle → s.hostWrite a v = s)

/-- The start input of R39, which follows the spec's decision D22. -/
def Obligations.StartRule : Prop :=
  ∀ s : State, (s.phase = .idle → s.start = { s with phase := .running, regs := s.regs.set 7 0xF4 }) ∧
    (s.phase ≠ .idle → s.start = s)

/-- The values after reset of R41 and R200 (their mark is the spec's decision D9): from any state, every component. -/
def Obligations.ResetValues : Prop :=
  ∀ s : State, (∀ a, (s.host .reset).mem.read a = 0) ∧ (∀ j, (s.host .reset).getReg j = 0) ∧
    (s.host .reset).pc = 0 ∧ (s.host .reset).phase = .idle ∧ (s.host .reset).fault = none ∧ (s.host .reset).out = []

/-- The stack pointer before start (R201): it is 0 after reset and as long as the core is Idle, becomes 0xF4 at start,
and until then nothing reads it: neither a step nor a host write nor a load depends on it. That the step function answers
the same state while Idle is not R201 but the model's choice, log entry 1. -/
def Obligations.StackPointerIsSetAtStart : Prop :=
  State.reset.sp = 0 ∧ (∀ s, Reachable s → s.phase = .idle → s.sp = 0 ∧ s.start.sp = 0xF4) ∧
  ∀ (s : State) (v a b : Byte) (image : List Byte), s.phase = .idle →
    step (s.setSp v) = .next (s.setSp v) ∧ (s.setSp v).hostWrite a b = (s.hostWrite a b).setSp v ∧
    (s.setSp v).load image = (s.load image).setSp v

/-- The model's own placing of a word, log entry 2: with a table word placed at a pc that has room for it, the very next
step runs the instruction the decoder reads from that word. -/
def Obligations.PlacedWordRunsNext : Prop :=
  ∀ (s : State) (nbits w : Nat) (i : Instr), s.pc.toNat ≤ 253 → decodeTableWord nbits w = some i →
    step (s.withFetchWord nbits w) = exec i (s.withFetchWord nbits w)

/-! ### Invariants and runs -/

/-- The invariant holds right after reset. Its clause on memory is the canonical list form, the model's choice of log
entry 10, here and in the statements that follow; its other clauses are the spec's (see `Inv`). -/
def Obligations.ResetSatisfiesInvariant : Prop := Inv State.reset

/-- Every step keeps the invariant, from every state that meets it. -/
def Obligations.StepKeepsInvariant : Prop := ∀ s t : State, Inv s → step s = .next t → Inv t

/-- Every act of the host keeps the invariant. -/
def Obligations.HostKeepsInvariant : Prop := ∀ (s : State) (a : HostAction), Inv s → Inv (s.host a)

/-- Every state that steps and acts of the host lead to from reset meets the invariant: memory stays canonical, the pc
within 0 to 256 (R25), the fault record there exactly in Faulted (R29) and one of those R171 lists, and before start
everything but memory is as construction left it. -/
def Obligations.ReachableStatesSatisfyInvariant : Prop := ∀ s : State, Reachable s → Inv s

/-- Two canonical memories that read the same at every address are the same. The canonical list form is the model's
choice, log entry 10; the spec gives 256 cells (R50) and no representation. -/
def Obligations.CanonicalMemoryIsUnique : Prop :=
  ∀ m n : Memory, m.wf = true → n.wf = true → (∀ a, a < 256 → m.read a = n.read a) → m = n

/-- Runs under a budget (R99, R102, the latter with the spec's decision D23): a result is final, whatever more budget is
given, and of a core that was Running it is Halted or Faulted; no result means that the core still runs after all the
steps of the budget. -/
def Obligations.RunResultIsFinal : Prop :=
  (∀ (n k : Nat) (s t : State), run n s = some t → run (n + k) s = some t ∧ t.phase ≠ .running ∧
    (s.phase = .running → t.phase = .halted ∨ t.phase = .faulted)) ∧
  (∀ (n : Nat) (s : State), run n s = none → ∃ t : State, Host.Core.run core n s = .next t ∧ t.phase = .running)

/-- The loader's text form of R59 (its white space is the model's choice, log entry 6): the binary literals of an image
read back as that image, and comments and blank lines are ignored. -/
def Obligations.TextImageReadsBack : Prop :=
  (∀ image : List Byte, Text.readImage (image.map Text.writeLine) = some image) ∧
  (∀ (b : Byte) (c : List Char), Text.readLine (Text.writeLine b ++ '#' :: c) = .byte b) ∧
  (∀ (before after : List (List Char)) (c : List Char),
    Text.readImage (before ++ ('#' :: c) :: after) = Text.readImage (before ++ after) ∧
    Text.readImage (before ++ [] :: after) = Text.readImage (before ++ after))
end

