-- ==== Sys2Proof/Laws/Decode.lean ====
section
/-! SUPPORT. The opcode map: each instruction is found exactly at its opcode. -/

namespace Sys2Proof

/-- The map finds an instruction exactly at its opcode. -/
theorem dispatch_some_iff (op : Byte) (m : Mnemonic) : dispatch op = some m ↔ op = m.opcode := by
  constructor
  · intro h
    exact (beq_iff_eq.mp (List.find?_some (p := fun m : Mnemonic => m.opcode == op) h)).symm
  · rintro rfl
    cases m <;> rfl

end Sys2Proof
end

