-- ==== Sys2Proof/Laws/Memory.lean ====
section
/-! SUPPORT. Reading after writing, and the canonical form kept by every memory operation. -/

namespace Sys2Proof.Machine

@[simp] theorem Memory.read_nil (a : Nat) : Memory.read [] a = unwrittenByte := rfl

theorem Memory.read_erase_self (m : Memory) (a : Nat) : (m.erase a).read a = unwrittenByte := by
  induction m with
  | nil => rfl
  | cons c rest ih =>
    obtain ⟨b, w⟩ := c
    by_cases h : a = b <;> simp [Memory.erase, Memory.read, h] <;> simpa [h] using ih

theorem Memory.read_erase_other (m : Memory) {a b : Nat} (h : b ≠ a) : (m.erase a).read b = m.read b := by
  induction m with
  | nil => rfl
  | cons c rest ih =>
    obtain ⟨d, w⟩ := c
    by_cases hd : a = d
    · subst hd; simp [Memory.erase, Memory.read, h, ih]
    · simp [Memory.erase, Memory.read, hd, ih]

/-- Placing an entry among cells none of which has its address is read back there and changes no other address. -/
theorem Memory.read_place (m : Memory) (a b : Nat) (v : Byte) :
    ((m.erase a).place a v).read b = if b = a then v else m.read b := by
  induction m with
  | nil => by_cases h : b = a <;> simp [Memory.erase, Memory.place, Memory.read, h]
  | cons c rest ih =>
    obtain ⟨d, w⟩ := c
    by_cases hd : a = d
    · subst hd
      simp only [Memory.erase, if_true, ih, Memory.read]
      split <;> simp_all
    · simp only [Memory.erase, hd, if_false, Memory.place]
      split
      · by_cases h : b = a
        · simp [Memory.read, h]
        · by_cases h' : b = d <;> simp [Memory.read, h, h', Memory.read_erase_other]
      · by_cases h' : b = d
        · subst h'; simp [Memory.read, Ne.symm hd]
        · simp [Memory.read, h', ih]

/-- The law of one cell: a write is read back at its address and leaves every other address alone, in any memory. -/
theorem Memory.read_write (m : Memory) (a b : Nat) (v : Byte) :
    (m.write a v).read b = if b = a then v else m.read b := by
  unfold Memory.write
  split
  · rename_i hv
    by_cases h : b = a
    · subst h; simp [Memory.read_erase_self, hv]
    · simp [h, Memory.read_erase_other]
  · exact Memory.read_place m a b v

@[simp] theorem Memory.read_write_self (m : Memory) (a : Nat) (v : Byte) : (m.write a v).read a = v := by
  simp [Memory.read_write]

theorem Memory.read_write_other (m : Memory) {a b : Nat} (v : Byte) (h : b ≠ a) :
    (m.write a v).read b = m.read b := by
  simp [Memory.read_write, h]

theorem Memory.above_erase {m : Memory} {c : Nat} (a : Nat) (h : Memory.above c m = true) :
    Memory.above c (m.erase a) = true := by
  induction m with
  | nil => rfl
  | cons e rest ih =>
    obtain ⟨d, w⟩ := e
    simp only [Memory.above, List.all_cons, Bool.and_eq_true] at h
    by_cases hd : a = d
    · simpa [Memory.erase, hd] using ih h.2
    · simp only [Memory.erase, hd, if_false, Memory.above, List.all_cons, Bool.and_eq_true]
      exact ⟨h.1, ih h.2⟩

theorem Memory.above_place {m : Memory} {c a : Nat} (v : Byte) (h : Memory.above c m = true) (hc : c < a) :
    Memory.above c (m.place a v) = true := by
  induction m with
  | nil => simp [Memory.place, Memory.above, hc]
  | cons e rest ih =>
    obtain ⟨d, w⟩ := e
    have h' := h
    simp only [Memory.above, List.all_cons, Bool.and_eq_true] at h
    unfold Memory.place
    split
    · simp only [Memory.above, List.all_cons, Bool.and_eq_true]
      exact ⟨by simpa using hc, h.1, h.2⟩
    · simp only [Memory.above, List.all_cons, Bool.and_eq_true]
      exact ⟨h.1, ih h.2⟩

theorem Memory.above_trans {m : Memory} {a b : Nat} (h : Memory.above b m = true) (hab : a < b) :
    Memory.above a m = true := by
  simp only [Memory.above, List.all_eq_true, decide_eq_true_eq] at *
  exact fun c hc => Nat.lt_trans hab (h c hc)

/-- What the canonical form says of a memory with a first entry. -/
theorem Memory.wf_cons {a : Nat} {v : Byte} {rest : Memory} :
    Memory.wf ((a, v) :: rest) = true ↔
      a < 256 ∧ v ≠ unwrittenByte ∧ Memory.above a rest = true ∧ Memory.wf rest = true := by
  simp only [Memory.wf, Bool.and_eq_true, decide_eq_true_eq, and_assoc]
  rfl

theorem Memory.wf_erase {m : Memory} (a : Nat) (h : m.wf = true) : (m.erase a).wf = true := by
  induction m with
  | nil => rfl
  | cons e rest ih =>
    obtain ⟨d, w⟩ := e
    obtain ⟨h1, h2, h3, h4⟩ := Memory.wf_cons.mp h
    by_cases hd : a = d
    · simpa [Memory.erase, hd] using ih h4
    · simp only [Memory.erase, hd, if_false]
      exact Memory.wf_cons.mpr ⟨h1, h2, Memory.above_erase a h3, ih h4⟩

theorem Memory.wf_place {m : Memory} {a : Nat} {v : Byte} (h : m.wf = true) (ha : a < 256) (hv : v ≠ unwrittenByte) :
    ((m.erase a).place a v).wf = true := by
  induction m with
  | nil => exact Memory.wf_cons.mpr ⟨ha, hv, rfl, rfl⟩
  | cons e rest ih =>
    obtain ⟨d, w⟩ := e
    obtain ⟨h1, h2, h3, h4⟩ := Memory.wf_cons.mp h
    by_cases hd : a = d
    · simpa [Memory.erase, hd] using ih h4
    · simp only [Memory.erase, hd, if_false, Memory.place]
      split
      · rename_i hlt
        have h5 := Memory.above_erase a h3
        refine Memory.wf_cons.mpr ⟨ha, hv, ?_, Memory.wf_cons.mpr ⟨h1, h2, h5, Memory.wf_erase a h4⟩⟩
        have h6 := Memory.above_trans h5 hlt
        simp only [Memory.above, List.all_cons, Bool.and_eq_true, decide_eq_true_eq] at *
        exact ⟨hlt, h6⟩
      · exact Memory.wf_cons.mpr ⟨h1, h2, Memory.above_place v (Memory.above_erase a h3) (by omega), ih h4⟩

/-- A write to an address of the address space keeps the canonical form. -/
theorem Memory.wf_write {m : Memory} {a : Nat} (v : Byte) (h : m.wf = true) (ha : a < 256) :
    (m.write a v).wf = true := by
  unfold Memory.write
  split
  · exact Memory.wf_erase a h
  · exact Memory.wf_place h ha ‹_›

/-- The memory of reset has the canonical form. -/
theorem Memory.wf_reset : State.reset.mem.wf = true := rfl

end Sys2Proof.Machine
end

