-- ==== Sys2Proof/Laws/State.lean ====
section
/-! SUPPORT. One lemma for each field after each update of the state, so that no proof unfolds a record update. -/

namespace Sys2Proof.Machine

@[simp] theorem State.setReg_mem (s : State) (i : Fin 8) (v : Byte) : (s.setReg i v).mem = s.mem := rfl
@[simp] theorem State.setReg_regs (s : State) (i : Fin 8) (v : Byte) : (s.setReg i v).regs = s.regs.set i v := rfl
@[simp] theorem State.setReg_pc (s : State) (i : Fin 8) (v : Byte) : (s.setReg i v).pc = s.pc := rfl
@[simp] theorem State.setReg_phase (s : State) (i : Fin 8) (v : Byte) : (s.setReg i v).phase = s.phase := rfl
@[simp] theorem State.setReg_fault (s : State) (i : Fin 8) (v : Byte) : (s.setReg i v).fault = s.fault := rfl
@[simp] theorem State.setReg_out (s : State) (i : Fin 8) (v : Byte) : (s.setReg i v).out = s.out := rfl

@[simp] theorem State.setSp_mem (s : State) (v : Byte) : (s.setSp v).mem = s.mem := rfl
@[simp] theorem State.setSp_regs (s : State) (v : Byte) : (s.setSp v).regs = s.regs.set Config.spIndex v := rfl
@[simp] theorem State.setSp_pc (s : State) (v : Byte) : (s.setSp v).pc = s.pc := rfl
@[simp] theorem State.setSp_phase (s : State) (v : Byte) : (s.setSp v).phase = s.phase := rfl
@[simp] theorem State.setSp_fault (s : State) (v : Byte) : (s.setSp v).fault = s.fault := rfl
@[simp] theorem State.setSp_out (s : State) (v : Byte) : (s.setSp v).out = s.out := rfl

@[simp] theorem State.writeMem_mem (s : State) (a v : Byte) : (s.writeMem a v).mem = s.mem.write a.toNat v := rfl
@[simp] theorem State.writeMem_regs (s : State) (a v : Byte) : (s.writeMem a v).regs = s.regs := rfl
@[simp] theorem State.writeMem_pc (s : State) (a v : Byte) : (s.writeMem a v).pc = s.pc := rfl
@[simp] theorem State.writeMem_phase (s : State) (a v : Byte) : (s.writeMem a v).phase = s.phase := rfl
@[simp] theorem State.writeMem_fault (s : State) (a v : Byte) : (s.writeMem a v).fault = s.fault := rfl
@[simp] theorem State.writeMem_out (s : State) (a v : Byte) : (s.writeMem a v).out = s.out := rfl

@[simp] theorem State.setPc_mem (s : State) (p : PcWord) : (s.setPc p).mem = s.mem := rfl
@[simp] theorem State.setPc_regs (s : State) (p : PcWord) : (s.setPc p).regs = s.regs := rfl
@[simp] theorem State.setPc_pc (s : State) (p : PcWord) : (s.setPc p).pc = p := rfl
@[simp] theorem State.setPc_phase (s : State) (p : PcWord) : (s.setPc p).phase = s.phase := rfl
@[simp] theorem State.setPc_fault (s : State) (p : PcWord) : (s.setPc p).fault = s.fault := rfl
@[simp] theorem State.setPc_out (s : State) (p : PcWord) : (s.setPc p).out = s.out := rfl

@[simp] theorem State.advance_mem (s : State) (n : Nat) : (s.advance n).mem = s.mem := rfl
@[simp] theorem State.advance_regs (s : State) (n : Nat) : (s.advance n).regs = s.regs := rfl
@[simp] theorem State.advance_pc (s : State) (n : Nat) : (s.advance n).pc = s.pc + BitVec.ofNat 9 n := rfl
@[simp] theorem State.advance_phase (s : State) (n : Nat) : (s.advance n).phase = s.phase := rfl
@[simp] theorem State.advance_fault (s : State) (n : Nat) : (s.advance n).fault = s.fault := rfl
@[simp] theorem State.advance_out (s : State) (n : Nat) : (s.advance n).out = s.out := rfl

@[simp] theorem State.setPhase_mem (s : State) (q : Phase) : (s.setPhase q).mem = s.mem := rfl
@[simp] theorem State.setPhase_regs (s : State) (q : Phase) : (s.setPhase q).regs = s.regs := rfl
@[simp] theorem State.setPhase_pc (s : State) (q : Phase) : (s.setPhase q).pc = s.pc := rfl
@[simp] theorem State.setPhase_phase (s : State) (q : Phase) : (s.setPhase q).phase = q := rfl
@[simp] theorem State.setPhase_fault (s : State) (q : Phase) : (s.setPhase q).fault = s.fault := rfl
@[simp] theorem State.setPhase_out (s : State) (q : Phase) : (s.setPhase q).out = s.out := rfl

@[simp] theorem State.emit_mem (s : State) (v : Byte) : (s.emit v).mem = s.mem := rfl
@[simp] theorem State.emit_regs (s : State) (v : Byte) : (s.emit v).regs = s.regs := rfl
@[simp] theorem State.emit_pc (s : State) (v : Byte) : (s.emit v).pc = s.pc := rfl
@[simp] theorem State.emit_phase (s : State) (v : Byte) : (s.emit v).phase = s.phase := rfl
@[simp] theorem State.emit_fault (s : State) (v : Byte) : (s.emit v).fault = s.fault := rfl
@[simp] theorem State.emit_out (s : State) (v : Byte) : (s.emit v).out = s.out ++ [v] := rfl

@[simp] theorem State.raise_mem (s : State) (op : Option Byte) (e : CoreError) : (s.raise op e).mem = s.mem := rfl
@[simp] theorem State.raise_regs (s : State) (op : Option Byte) (e : CoreError) : (s.raise op e).regs = s.regs := rfl
@[simp] theorem State.raise_pc (s : State) (op : Option Byte) (e : CoreError) : (s.raise op e).pc = s.pc := rfl
@[simp] theorem State.raise_phase (s : State) (op : Option Byte) (e : CoreError) : (s.raise op e).phase = .faulted := rfl
@[simp] theorem State.raise_fault (s : State) (op : Option Byte) (e : CoreError) : (s.raise op e).fault = some { code := e.code, pc := s.pc, opcode := op, kind := e.kind, value := e.value } := rfl
@[simp] theorem State.raise_out (s : State) (op : Option Byte) (e : CoreError) : (s.raise op e).out = s.out := rfl

end Sys2Proof.Machine
end

