-- ==== Sys2Proof/Laws/Ops.lean ====
section
/-! SUPPORT. What each shared operation can do, said once: registers, the stack, checking an operand, ending an
instruction. -/

namespace Sys2Proof.Machine

/-! ### Registers -/

/-- A register read after a register write. -/
theorem State.getReg_setReg (s : State) (i j : Fin 8) (v : Byte) :
    (s.setReg i v).getReg j = if j = i then v else s.getReg j := by
  simp only [State.getReg, State.setReg, Fin.getElem_fin, Vector.getElem_set, Fin.val_inj, eq_comm]

@[simp] theorem State.getReg_setReg_self (s : State) (i : Fin 8) (v : Byte) : (s.setReg i v).getReg i = v := by
  simp [State.getReg_setReg]

theorem State.getReg_setReg_other (s : State) {i j : Fin 8} (v : Byte) (h : j ≠ i) :
    (s.setReg i v).getReg j = s.getReg j := by
  simp [State.getReg_setReg, h]

/-- Two register files that read the same are the same. -/
theorem regs_ext {s t : State} (h : ∀ j, s.getReg j = t.getReg j) : s.regs = t.regs :=
  Vector.ext fun i hi => h ⟨i, hi⟩

@[simp] theorem State.getReg_writeMem (s : State) (a v : Byte) (j : Fin 8) : (s.writeMem a v).getReg j = s.getReg j := rfl
@[simp] theorem State.getReg_advance (s : State) (n : Nat) (j : Fin 8) : (s.advance n).getReg j = s.getReg j := rfl
@[simp] theorem State.getReg_setPc (s : State) (p : PcWord) (j : Fin 8) : (s.setPc p).getReg j = s.getReg j := rfl
@[simp] theorem State.getReg_emit (s : State) (v : Byte) (j : Fin 8) : (s.emit v).getReg j = s.getReg j := rfl
@[simp] theorem State.getReg_setPhase (s : State) (q : Phase) (j : Fin 8) : (s.setPhase q).getReg j = s.getReg j := rfl
@[simp] theorem State.getReg_raise (s : State) (op : Option Byte) (e : CoreError) (j : Fin 8) :
    (s.raise op e).getReg j = s.getReg j := rfl
@[simp] theorem State.readMem_setReg (s : State) (i : Fin 8) (v a : Byte) : (s.setReg i v).readMem a = s.readMem a := rfl

/-! ### Operands -/

/-- CheckReg passes exactly the indices 0 to 7 (R9). -/
theorem checkReg_ok_iff (b : Byte) (d : Fin 8) : checkReg b = .ok d ↔ b.toNat = d.val := by
  unfold checkReg
  split
  · simp [Fin.ext_iff]
  · simp only [reduceCtorEq, false_iff]
    omega

theorem checkReg_ok {b : Byte} {d : Fin 8} (h : b.toNat = d.val) : checkReg b = .ok d := (checkReg_ok_iff b d).mpr h

/-- CheckReg raises RegisterIndex with the index for every other byte (R9). -/
theorem checkReg_error {b : Byte} (h : 7 < b.toNat) : checkReg b = .error (.outOfBounds .registerIndex b.toNat) := by
  unfold checkReg
  split
  · omega
  · rfl

/-- The two outcomes of CheckReg. -/
theorem checkReg_cases (b : Byte) :
    (∃ d : Fin 8, b.toNat = d.val ∧ checkReg b = .ok d) ∨
    (7 < b.toNat ∧ checkReg b = .error (.outOfBounds .registerIndex b.toNat)) := by
  by_cases h : b.toNat < 8
  · exact .inl ⟨⟨b.toNat, h⟩, rfl, checkReg_ok rfl⟩
  · exact .inr ⟨by omega, checkReg_error (by omega)⟩

/-! ### The stack -/

theorem State.pushSlot_ok {s : State} (h : s.sp ≠ 0) : s.pushSlot = .ok (s.sp - 1) := if_neg h

theorem State.pushSlot_error {s : State} (h : s.sp = 0) : s.pushSlot = .error (.outOfBounds .stackPointer (-1)) :=
  if_pos h

/-- A push stores at the decremented SP, or raises at SP 0. -/
theorem State.pushByte_cases (s : State) (v : Byte) :
    (s.sp ≠ 0 ∧ s.pushByte v = .ok ((s.setSp (s.sp - 1)).writeMem (s.sp - 1) v)) ∨
    (s.sp = 0 ∧ s.pushByte v = .error (.outOfBounds .stackPointer (-1))) := by
  by_cases h : s.sp = 0
  · exact .inr ⟨h, by simp only [State.pushByte, State.pushSlot_error h]; rfl⟩
  · exact .inl ⟨h, by simp only [State.pushByte, State.pushSlot_ok h]; rfl⟩

/-- A pop moves SP up by 1, or raises at SP 255. -/
theorem State.popSp_cases (s : State) :
    (s.sp ≠ 255 ∧ s.popSp = .ok (s.setSp (s.sp + 1))) ∨
    (s.sp = 255 ∧ s.popSp = .error (.outOfBounds .stackPointer 256)) := by
  by_cases h : s.sp = 255
  · exact .inr ⟨h, if_pos h⟩
  · exact .inl ⟨h, if_neg h⟩

/-- CALL's return address fits a byte, or raises. -/
theorem State.returnAddress_cases (s : State) :
    (s.pc.toNat + 2 ≤ 255 ∧ s.returnAddress = .ok (BitVec.ofNat 8 (s.pc.toNat + 2))) ∨
    (255 < s.pc.toNat + 2 ∧ s.returnAddress = .error (.outOfBounds .returnAddress (s.pc.toNat + 2))) := by
  unfold State.returnAddress
  split
  · exact .inr ⟨by omega, rfl⟩
  · exact .inl ⟨by omega, rfl⟩

/-! ### Ending an instruction -/

/-- An instruction ends in a next state, and that is the state of its staged writes, or its start after a fault entry
(R97). -/
theorem finish_next {i : Instr} {s t : State} {r : Except CoreError State} (h : finish i s r = .next t) :
    r = .ok t ∨ ∃ e, r = .error e ∧ t = s.raise (some i.opcode) e := by
  cases r with
  | ok u => exact .inl (by simpa [finish] using h)
  | error e => exact .inr ⟨e, rfl, by simpa [finish, eq_comm] using h⟩

@[simp] theorem finish_ok (i : Instr) (s t : State) : finish i s (.ok t) = .next t := rfl

@[simp] theorem finish_error (i : Instr) (s : State) (e : CoreError) :
    finish i s (.error e) = .next (s.raise (some i.opcode) e) := rfl

/-- Every meaning answers a next state: an error is one, too. -/
theorem exec_answers_next (i : Instr) (s : State) : ∃ t, exec i s = .next t := by
  have h (j : Instr) (r : Except CoreError State) : ∃ t, finish j s r = .next t := by
    cases r with
    | ok u => exact ⟨u, rfl⟩
    | error e => exact ⟨_, rfl⟩
  cases i <;>
    simp only [exec, execHlt, execRet, execPush, execPop, execPrn, execCall, execLdi, execAdd, execMul] <;>
    exact h _ _

end Sys2Proof.Machine
end

