-- ==== Sys2Proof/Laws/HostPort.lean ====
section
/-! SUPPORT. What the host's acts can do. -/

namespace Sys2Proof.Machine

/-- A host write while Idle. -/
theorem hostWrite_idle {s : State} (a v : Byte) (h : s.phase = .idle) : s.hostWrite a v = s.writeMem a v := by
  simp [State.hostWrite, h]

/-- A host write in any other phase. -/
theorem hostWrite_other {s : State} (a v : Byte) (h : s.phase ≠ .idle) : s.hostWrite a v = s := by
  unfold State.hostWrite
  cases hp : s.phase <;> simp_all

/-- A host write changes memory alone. -/
theorem hostWrite_mem_only (s : State) (a v : Byte) : s.hostWrite a v = { s with mem := (s.hostWrite a v).mem } := by
  by_cases h : s.phase = .idle
  · rw [hostWrite_idle a v h]; rfl
  · rw [hostWrite_other a v h]

/-- Start from Idle. -/
theorem start_idle {s : State} (h : s.phase = .idle) : s.start = (s.setPhase .running).setSp Config.spInit := by
  simp [State.start, h]

/-- Start in any other phase. -/
theorem start_other {s : State} (h : s.phase ≠ .idle) : s.start = s := by
  unfold State.start
  cases hp : s.phase <;> simp_all

end Sys2Proof.Machine
end

