-- ==== Sys2Proof/Laws/PerInstr.lean ====
section
/-! SUPPORT. A fact about every instruction as it is written, one lemma for each constructor: the shape of its
encoding. -/

namespace Sys2Proof.Laws.EncodeShape

/-- The encoding begins with the opcode the map lists for the instruction (R70, R75), has the length of its format
(R71), and its register operands stand among its operand bytes. -/
def Statement (i : Instr) : Prop :=
  (encode i).head? = some i.opcode ∧ dispatch i.opcode = some i.mnemonic ∧ (encode i).length = i.length ∧
    ∀ r ∈ i.registerOperands, r ∈ i.operands

theorem hlt : Statement .hlt := ⟨rfl, rfl, rfl, by simp [Instr.registerOperands, Instr.operands]⟩

theorem ret : Statement .ret := ⟨rfl, rfl, rfl, by simp [Instr.registerOperands, Instr.operands]⟩

theorem push (r : Byte) : Statement (.push r) := ⟨rfl, rfl, rfl, by simp [Instr.registerOperands, Instr.operands]⟩

theorem pop (r : Byte) : Statement (.pop r) := ⟨rfl, rfl, rfl, by simp [Instr.registerOperands, Instr.operands]⟩

theorem prn (r : Byte) : Statement (.prn r) := ⟨rfl, rfl, rfl, by simp [Instr.registerOperands, Instr.operands]⟩

theorem call (r : Byte) : Statement (.call r) := ⟨rfl, rfl, rfl, by simp [Instr.registerOperands, Instr.operands]⟩

theorem ldi (r imm : Byte) : Statement (.ldi r imm) := ⟨rfl, rfl, rfl, by simp [Instr.registerOperands, Instr.operands]⟩

theorem add (a b : Byte) : Statement (.add a b) := ⟨rfl, rfl, rfl, by simp [Instr.registerOperands, Instr.operands]⟩

theorem mul (a b : Byte) : Statement (.mul a b) := ⟨rfl, rfl, rfl, by simp [Instr.registerOperands, Instr.operands]⟩

end Sys2Proof.Laws.EncodeShape
end

