-- ==== Sys2Proof/Laws/Step.lean ====
section
/-! SUPPORT. What one step can do, and which bytes a fetch sees. -/

namespace Sys2Proof.Machine

/-- A step outside Running (log entry 1). -/
theorem step_outside {s : State} (h : s.phase ≠ .running) : step s = .next s := by
  unfold step State.outsideRunning
  cases hp : s.phase <;> simp_all

/-- A step while Running whose fetch succeeds. -/
theorem step_fetched {s : State} {i : Instr} (h : s.phase = .running) (hf : s.fetch = .ok i) : step s = exec i s := by
  simp [step, h, hf]

/-- A step while Running whose fetch raises. -/
theorem step_raised {s : State} {e : FetchRaise} (h : s.phase = .running) (hf : s.fetch = .error e) :
    step s = .next (s.raise e.opcode e.error) := by
  simp [step, h, hf]

/-- Everything a step can do: nothing outside Running, the instruction fetched, or what the fetch raised. -/
theorem step_cases {s t : State} (h : step s = .next t) :
    (s.phase ≠ .running ∧ t = s) ∨
    (s.phase = .running ∧ ∃ i, s.fetch = .ok i ∧ exec i s = .next t) ∨
    (s.phase = .running ∧ ∃ e, s.fetch = .error e ∧ t = s.raise e.opcode e.error) := by
  by_cases hp : s.phase = .running
  · cases hf : s.fetch with
    | ok i => exact .inr (.inl ⟨hp, i, rfl, by rw [← step_fetched hp hf]; exact h⟩)
    | error e =>
      rw [step_raised hp hf] at h
      cases h
      exact .inr (.inr ⟨hp, e, rfl, rfl⟩)
  · rw [step_outside hp] at h
    cases h
    exact .inl ⟨hp, rfl⟩

/-- The bytes a fetch sees, by how many of the three addresses lie in memory (R52). -/
theorem fetchBytes_cases (s : State) :
    (255 < s.pc.toNat ∧ s.fetchBytes = []) ∨
    (s.pc.toNat = 255 ∧ s.fetchBytes = [s.mem.read s.pc.toNat]) ∨
    (s.pc.toNat = 254 ∧ s.fetchBytes = [s.mem.read s.pc.toNat, s.mem.read (s.pc.toNat + 1)]) ∨
    (s.pc.toNat < 254 ∧
      s.fetchBytes = [s.mem.read s.pc.toNat, s.mem.read (s.pc.toNat + 1), s.mem.read (s.pc.toNat + 2)]) := by
  have hr : List.range 3 = [0, 1, 2] := rfl
  simp only [State.fetchBytes, hr, List.map_cons, List.map_nil, Config.memSize]
  rcases Nat.lt_trichotomy s.pc.toNat 254 with h | h | h
  · right; right; right
    refine ⟨h, ?_⟩
    simp [show s.pc.toNat < 256 by omega, show s.pc.toNat + 1 < 256 by omega, show s.pc.toNat + 2 < 256 by omega]
  · right; right; left
    refine ⟨h, ?_⟩
    simp [h]
  · rcases Nat.lt_trichotomy s.pc.toNat 255 with h' | h' | h'
    · omega
    · right; left
      refine ⟨h', ?_⟩
      simp [h']
    · left
      refine ⟨h', ?_⟩
      simp [show ¬ s.pc.toNat < 256 by omega, show ¬ s.pc.toNat + 1 < 256 by omega, show ¬ s.pc.toNat + 2 < 256 by omega]

end Sys2Proof.Machine
end

