-- ==== Sys2Proof/Tests/Slice0.lean ====
section
/-! SUPPORT. The model's own tests: the refusals of `wellFormed`, one word decoded for each instruction, single steps of
the vectors of 95_test_vectors.md (named in each comment; the values are the vectors'), and, for each statement with
hypotheses, a state and operands that meet them. -/

namespace Sys2Proof.Tests

open Sys2Proof Sys2Proof.Machine

/-- The core after start, at pc `p`, with `bytes` there. -/
def ready (p : PcWord) (bytes : List Byte) : State := ({ State.reset.start with pc := p }).placeBytes bytes

/-- What `f` sees of the next state of a step. -/
def after {α : Type} (s : State) (f : State → α) : Option α :=
  match step s with
  | .next t => some (f t)
  | .fault _ => none
  | .refused _ => none

/-! ### WellFormed: an ill-formed term for each check, refused -/

theorem test_wellFormed_push : (Instr.push 8).wellFormed = false := by decide
theorem test_wellFormed_pop : (Instr.pop 255).wellFormed = false := by decide
theorem test_wellFormed_prn : (Instr.prn 8).wellFormed = false := by decide
theorem test_wellFormed_call : (Instr.call 9).wellFormed = false := by decide
theorem test_wellFormed_ldi : (Instr.ldi 8 0).wellFormed = false := by decide
theorem test_wellFormed_add_first : (Instr.add 8 0).wellFormed = false := by decide
theorem test_wellFormed_add_second : (Instr.add 0 8).wellFormed = false := by decide
theorem test_wellFormed_mul_first : (Instr.mul 9 0).wellFormed = false := by decide
theorem test_wellFormed_mul_second : (Instr.mul 0 9).wellFormed = false := by decide
theorem test_wellFormed_highest_register : (Instr.add 7 7).wellFormed = true := by decide

/-! ### Decode: words written out from R71 and R75, as spec/opcode_table.json numbers their bits -/

-- HLT: byte 0 is 0x01
theorem test_decode_hlt : decodeTableWord 8 0b00000001 = some .hlt := by decide
-- RET: byte 0 is 0x11
theorem test_decode_ret : decodeTableWord 8 0b00010001 = some .ret := by decide
-- PUSH R7: byte 0 is 0x45, byte 1 the register
theorem test_decode_push : decodeTableWord 16 0b00000111_01000101 = some (.push 7) := by decide
-- POP R2: byte 0 is 0x46
theorem test_decode_pop : decodeTableWord 16 0b00000010_01000110 = some (.pop 2) := by decide
-- PRN with the whole operand byte 0x85, no bit masked off (R72)
theorem test_decode_prn : decodeTableWord 16 0b10000101_01000111 = some (.prn 0x85) := by decide
-- CALL R1: byte 0 is 0x50
theorem test_decode_call : decodeTableWord 16 0b00000001_01010000 = some (.call 1) := by decide
-- LDI R3,128: byte 0 is 0x82, byte 1 the register, byte 2 the immediate
theorem test_decode_ldi : decodeTableWord 24 0b10000000_00000011_10000010 = some (.ldi 3 0x80) := by decide
-- ADD R0,R1: byte 1 is the destination
theorem test_decode_add : decodeTableWord 24 0b00000001_00000000_10100000 = some (.add 0 1) := by decide
-- MUL R2,R3
theorem test_decode_mul : decodeTableWord 24 0b00000011_00000010_10100010 = some (.mul 2 3) := by decide
-- 0xA1 is ADD and MUL with one bit changed (LOOP-2), 0x00 the byte of an unwritten cell (R78)
theorem test_decode_unlisted : decode [0xA1, 0, 0] = .error (.illegalOpcode 0xA1) ∧ decode [0] = .error (.illegalOpcode 0) :=
  ⟨rfl, rfl⟩
-- the lowest missing operand byte is named (R93)
theorem test_decode_missing : decode [0x82] = .error (.missingOperand 0x82 1) ∧
    decode [0x82, 0] = .error (.missingOperand 0x82 2) ∧ decode [] = .error .noOpcode := ⟨rfl, rfl, rfl⟩
-- no two instructions share an opcode
theorem test_opcodes_distinct : (Mnemonic.all.map Mnemonic.opcode).Nodup := by decide

/-! ### Single steps: the vectors of 95_test_vectors.md -/

-- LOOP-3
theorem test_fetch_past_memory : after (ready 256 []) State.fault =
    some (some ⟨.outOfBoundsAddress, 256, none, some .fetchAddress, some 256⟩) := by decide
-- LOOP-6
theorem test_fetch_illegal_at_the_end : after (ready 0xFF [0x02]) State.fault =
    some (some ⟨.illegalInstruction, 0xFF, some 0x02, none, none⟩) := by decide
-- LOOP-7
theorem test_fetch_operand_before_register : after (ready 0xFE [0xA0, 9]) State.fault =
    some (some ⟨.outOfBoundsAddress, 0xFE, some 0xA0, some .fetchAddress, some 256⟩) := by decide

-- HLT-2
theorem test_hlt : after (ready 0xFF [0x01]) (fun t => (t.phase, t.pc)) = some (.halted, 0xFF) := by decide

-- LDI-6
theorem test_ldi_at_the_end : after (ready 0xFD [0x82, 1, 2]) (fun t => (t.getReg 1, t.pc)) = some (2, 256) := by decide
-- LDI-4
theorem test_ldi_register_index : after (ready 0 [0x82, 0xFF, 5]) State.fault =
    some (some ⟨.outOfBoundsAddress, 0, some 0x82, some .registerIndex, some 255⟩) := by decide

-- PRN-2
theorem test_prn_sp : after (ready 0 [0x47, 7]) (fun t => (t.out, t.pc)) = some ([244], 2) := by decide
-- PRN-5
theorem test_prn_at_the_end : after (ready 0xFF [0x47]) (fun t => (t.phase, t.out)) = some (.faulted, []) := by decide

-- ADD-3
theorem test_add_wraps : after (((ready 0 [0xA0, 0, 1]).setReg 0 200).setReg 1 100)
    (fun t => (t.getReg 0, t.getReg 1)) = some (44, 100) := by decide
-- ADD-9
theorem test_add_first_index_first : after (ready 0 [0xA0, 9, 10]) State.fault =
    some (some ⟨.outOfBoundsAddress, 0, some 0xA0, some .registerIndex, some 9⟩) := by decide

-- MUL-1
theorem test_mul_wraps : after (((ready 0 [0xA2, 0, 1]).setReg 0 200).setReg 1 3)
    (fun t => (t.getReg 0, t.pc)) = some (88, 3) := by decide
-- MUL-7
theorem test_mul_register_index : after (ready 0 [0xA2, 0x0C, 0]) State.fault =
    some (some ⟨.outOfBoundsAddress, 0, some 0xA2, some .registerIndex, some 12⟩) := by decide

-- PUSH-4
theorem test_push_sp : after (ready 0 [0x45, 7]) (fun t => (t.sp, t.mem.read 0xF3)) = some (0xF3, 0xF4) := by decide
-- PUSH-3
theorem test_push_at_zero : after ((ready 0x10 [0x45, 0]).setSp 0) State.fault =
    some (some ⟨.outOfBoundsAddress, 0x10, some 0x45, some .stackPointer, some (-1)⟩) := by decide

-- POP-4
theorem test_pop_sp : after (((ready 0 [0x46, 7]).setSp 0xF3).writeMem 0xF3 0x20) State.sp = some 0x21 := by decide
-- POP-3
theorem test_pop_at_255 : after (((ready 0 [0x46, 0]).setReg 0 3).setSp 0xFF)
    (fun t => (t.getReg 0, t.fault.bind FaultRecord.value)) = some (3, some 256) := by decide

-- CALL-4
theorem test_call_sp : after (ready 0x20 [0x50, 7]) (fun t => (t.mem.read 0xF3, t.pc)) = some (0x22, 0xF3) := by decide
-- CALL-8
theorem test_call_register_before_return : after (ready 0xFE [0x50, 9]) State.fault =
    some (some ⟨.outOfBoundsAddress, 0xFE, some 0x50, some .registerIndex, some 9⟩) := by decide

-- RET-4
theorem test_ret_at_the_end : after (((ready 0xFF [0x11]).setSp 0xF3).writeMem 0xF3 5)
    (fun t => (t.sp, t.pc)) = some (0xF4, 5) := by decide
-- RET-2
theorem test_ret_at_255 : after ((ready 0x40 [0x11]).setSp 0xFF) State.fault =
    some (some ⟨.outOfBoundsAddress, 0x40, some 0x11, some .stackPointer, some 256⟩) := by decide

/-! ### The host's side -/

-- LS-1
theorem test_load_and_start : (State.reset.load [0x82, 0, 5, 1]).start =
    { State.reset with mem := [(0, 0x82), (2, 5), (3, 1)], regs := State.reset.regs.set 7 0xF4, phase := .running } := by
  decide
-- LS-2
theorem test_load_too_long : State.reset.load (List.replicate 257 1) = State.reset :=
  if_pos (by rw [List.length_replicate]; decide)
-- LS-3
theorem test_start_without_load : after State.reset.start State.fault =
    some (some ⟨.illegalInstruction, 0, some 0x00, none, none⟩) := by decide
-- the host's table word runs from reset (LDI-1)
theorem test_withFetchWord : after (State.reset.withFetchWord 24 0x080082) (fun t => (t.getReg 0, t.pc)) = some (8, 3) := by
  decide
-- the first lines of program P1's text image
theorem test_text_image : Text.readImage ["10000010 # LDI R0,8".toList, "00000000".toList, "00001000".toList] =
    some [0x82, 0x00, 0x08] := by decide

/-! ### Witnesses: a state and operands that meet the hypotheses of each statement -/

theorem witness_OpcodeMapIsExactlyNine : (0x00 : Byte) ∉ specOpcodes ∧ (0xFF : Byte) ∉ specOpcodes := by decide

theorem witness_LengthIsFixedByOpcode : decode [0xA0, 9, 10, 1] = .ok (.add 9 10, [1]) := rfl

theorem witness_StepRunsDecodedInstruction :
    (ready 0xFF [0x11]).phase = .running ∧ decode (ready 0xFF [0x11]).fetchBytes = .ok (.ret, []) := ⟨rfl, rfl⟩

theorem witness_StepRunsInstructionInMemory :
    let s := ready 0xFD [0x82, 1, 2]
    s.phase = .running ∧ s.pc.toNat + (encode (.ldi 1 2)).length ≤ 256 ∧
      ∀ k b, (encode (.ldi 1 2))[k]? = some b → s.byteAt k = b := by
  refine ⟨rfl, by decide, fun k b h => ?_⟩
  match k, h with
  | 0, h => cases h; rfl
  | 1, h => cases h; rfl
  | 2, h => cases h; rfl

theorem witness_IllegalOpcodeFaults :
    let s := ready 0xFF [0x02]
    s.phase = .running ∧ s.pc.toNat ≤ 255 ∧ s.byteAt 0 ∉ specOpcodes := by decide

theorem witness_OpcodeFetchPastMemoryFaults : (ready 256 []).phase = .running ∧ 255 < (ready 256 []).pc.toNat := by decide

theorem witness_MissingOperandFaults_two_bytes :
    let s := ready 0xFF [0x47]
    s.phase = .running ∧ s.pc.toNat ≤ 255 ∧ s.byteAt 0 ∈ specOpcodes ∧ 256 < s.pc.toNat + specLength (s.byteAt 0) := by
  decide

theorem witness_MissingOperandFaults_three_bytes :
    let s := ready 0xFE [0xA0, 9]
    s.phase = .running ∧ s.pc.toNat ≤ 255 ∧ s.byteAt 0 ∈ specOpcodes ∧ 256 < s.pc.toNat + specLength (s.byteAt 0) := by
  decide

theorem witness_StepOutsideRunningChangesNothing :
    State.reset.phase ≠ .running ∧ (State.reset.setPhase .halted).phase ≠ .running ∧
      ((ready 0 []).raise none .illegalInstruction).phase ≠ .running := by decide

theorem witness_StepIsTotal : (ready 0 []).phase = .running := rfl

theorem witness_FirstFailingCheckIsReported :
    (ready 256 []).phase = .running ∧
    (firstError (ready 256 [])).isSome ∧ (firstError (ready 0xFF [0x02])).isSome ∧
    (firstError (ready 0xFE [0x82])).isSome ∧ (firstError (ready 0 [0xA2, 0, 8])).isSome ∧
    (firstError (ready 0xFE [0x50, 1])).isSome ∧ (firstError ((ready 0 [0x45, 0]).setSp 0)).isSome ∧
    (firstError ((ready 0 [0x46, 0]).setSp 255)).isSome ∧ firstError (ready 0xFD [0x82, 7, 0]) = none := by decide

theorem witness_LdiRule :
    ((ready 0xFE [0x82, 0]).startsWith 0x82 ∧ 255 < (ready 0xFE [0x82, 0]).pc.toNat + 2) ∧
    ((ready 0xFD [0x82, 8, 0]).startsWith 0x82 ∧ (ready 0xFD [0x82, 8, 0]).pc.toNat + 2 ≤ 255 ∧
      7 < ((ready 0xFD [0x82, 8, 0]).byteAt 1).toNat) ∧
    ((ready 0xFD [0x82, 7, 0]).startsWith 0x82 ∧ (ready 0xFD [0x82, 7, 0]).pc.toNat + 2 ≤ 255 ∧
      ((ready 0xFD [0x82, 7, 0]).byteAt 1).toNat = (7 : Fin 8).val) := by decide

theorem witness_PrnRule :
    ((ready 0xFF [0x47]).startsWith 0x47 ∧ 255 < (ready 0xFF [0x47]).pc.toNat + 1) ∧
    ((ready 0xFE [0x47, 8]).startsWith 0x47 ∧ (ready 0xFE [0x47, 8]).pc.toNat + 1 ≤ 255 ∧
      7 < ((ready 0xFE [0x47, 8]).byteAt 1).toNat) ∧
    ((ready 0xFE [0x47, 7]).startsWith 0x47 ∧ (ready 0xFE [0x47, 7]).pc.toNat + 1 ≤ 255 ∧
      ((ready 0xFE [0x47, 7]).byteAt 1).toNat = (7 : Fin 8).val) := by decide

theorem witness_AddRule :
    ((ready 0xFE [0xA0, 0]).startsWith 0xA0 ∧ 255 < (ready 0xFE [0xA0, 0]).pc.toNat + 2) ∧
    ((ready 0xFD [0xA0, 8, 8]).startsWith 0xA0 ∧ (ready 0xFD [0xA0, 8, 8]).pc.toNat + 2 ≤ 255 ∧
      7 < ((ready 0xFD [0xA0, 8, 8]).byteAt 1).toNat) ∧
    ((ready 0xFD [0xA0, 7, 8]).startsWith 0xA0 ∧ (ready 0xFD [0xA0, 7, 8]).pc.toNat + 2 ≤ 255 ∧
      ((ready 0xFD [0xA0, 7, 8]).byteAt 1).toNat = (7 : Fin 8).val ∧ 7 < ((ready 0xFD [0xA0, 7, 8]).byteAt 2).toNat) ∧
    ((ready 0xFD [0xA0, 7, 0]).startsWith 0xA0 ∧ (ready 0xFD [0xA0, 7, 0]).pc.toNat + 2 ≤ 255 ∧
      ((ready 0xFD [0xA0, 7, 0]).byteAt 1).toNat = (7 : Fin 8).val ∧
      ((ready 0xFD [0xA0, 7, 0]).byteAt 2).toNat = (0 : Fin 8).val) := by decide

theorem witness_MulRule :
    ((ready 0xFE [0xA2, 0]).startsWith 0xA2 ∧ 255 < (ready 0xFE [0xA2, 0]).pc.toNat + 2) ∧
    ((ready 0xFD [0xA2, 8, 8]).startsWith 0xA2 ∧ (ready 0xFD [0xA2, 8, 8]).pc.toNat + 2 ≤ 255 ∧
      7 < ((ready 0xFD [0xA2, 8, 8]).byteAt 1).toNat) ∧
    ((ready 0xFD [0xA2, 7, 8]).startsWith 0xA2 ∧ (ready 0xFD [0xA2, 7, 8]).pc.toNat + 2 ≤ 255 ∧
      ((ready 0xFD [0xA2, 7, 8]).byteAt 1).toNat = (7 : Fin 8).val ∧ 7 < ((ready 0xFD [0xA2, 7, 8]).byteAt 2).toNat) ∧
    ((ready 0xFD [0xA2, 0, 7]).startsWith 0xA2 ∧ (ready 0xFD [0xA2, 0, 7]).pc.toNat + 2 ≤ 255 ∧
      ((ready 0xFD [0xA2, 0, 7]).byteAt 1).toNat = (0 : Fin 8).val ∧
      ((ready 0xFD [0xA2, 0, 7]).byteAt 2).toNat = (7 : Fin 8).val) := by decide

theorem witness_PushRule_raises :
    ((ready 0xFF [0x45]).startsWith 0x45 ∧ 255 < (ready 0xFF [0x45]).pc.toNat + 1) ∧
    ((ready 0xFE [0x45, 8]).startsWith 0x45 ∧ (ready 0xFE [0x45, 8]).pc.toNat + 1 ≤ 255 ∧
      7 < ((ready 0xFE [0x45, 8]).byteAt 1).toNat) ∧
    (let s := (ready 0xFE [0x45, 0]).setSp 0
     s.startsWith 0x45 ∧ s.pc.toNat + 1 ≤ 255 ∧ (s.byteAt 1).toNat = (0 : Fin 8).val ∧ s.sp = 0) := by decide

theorem witness_PushRule_stores :
    let s := (ready 0xFE [0x45, 7]).setSp 1
    s.startsWith 0x45 ∧ s.pc.toNat + 1 ≤ 255 ∧ (s.byteAt 1).toNat = (7 : Fin 8).val ∧ s.sp ≠ 0 := by decide

theorem witness_PopRule_raises :
    ((ready 0xFF [0x46]).startsWith 0x46 ∧ 255 < (ready 0xFF [0x46]).pc.toNat + 1) ∧
    ((ready 0xFE [0x46, 8]).startsWith 0x46 ∧ (ready 0xFE [0x46, 8]).pc.toNat + 1 ≤ 255 ∧
      7 < ((ready 0xFE [0x46, 8]).byteAt 1).toNat) ∧
    (let s := (ready 0 [0x46, 6]).setSp 255
     s.startsWith 0x46 ∧ s.pc.toNat + 1 ≤ 255 ∧ (s.byteAt 1).toNat = (6 : Fin 8).val ∧ s.sp = 255) ∧
    (let s := (ready 0 [0x46, 7]).writeMem 0xF4 255
     s.startsWith 0x46 ∧ s.pc.toNat + 1 ≤ 255 ∧ s.byteAt 1 = 7 ∧ s.mem.read s.sp.toNat = 255) := by decide

theorem witness_PopRule_pops :
    (let s := (ready 0xFE [0x46, 6]).setSp 254
     s.startsWith 0x46 ∧ s.pc.toNat + 1 ≤ 255 ∧ (6 : Fin 8) ≠ 7 ∧ (s.byteAt 1).toNat = (6 : Fin 8).val ∧ s.sp ≠ 255) ∧
    (let s := ((ready 0 [0x46, 7]).setSp 255).writeMem 0xFF 254
     s.startsWith 0x46 ∧ s.pc.toNat + 1 ≤ 255 ∧ s.byteAt 1 = 7 ∧ s.mem.read s.sp.toNat ≠ 255) := by decide

theorem witness_CallRule_raises :
    ((ready 0xFF [0x50]).startsWith 0x50 ∧ 255 < (ready 0xFF [0x50]).pc.toNat + 1) ∧
    ((ready 0xFE [0x50, 8]).startsWith 0x50 ∧ (ready 0xFE [0x50, 8]).pc.toNat + 1 ≤ 255 ∧
      7 < ((ready 0xFE [0x50, 8]).byteAt 1).toNat) ∧
    (let s := ready 0xFE [0x50, 0]
     s.startsWith 0x50 ∧ s.pc.toNat + 1 ≤ 255 ∧ (s.byteAt 1).toNat = (0 : Fin 8).val ∧ 255 < s.pc.toNat + 2) ∧
    (let s := (ready 0xFD [0x50, 0]).setSp 0
     s.startsWith 0x50 ∧ (s.byteAt 1).toNat = (0 : Fin 8).val ∧ s.pc.toNat + 2 ≤ 255 ∧ s.sp = 0) := by decide

theorem witness_CallRule_calls :
    let s := (ready 0xFD [0x50, 7]).setSp 1
    s.startsWith 0x50 ∧ (s.byteAt 1).toNat = (7 : Fin 8).val ∧ s.pc.toNat + 2 ≤ 255 ∧ s.sp ≠ 0 := by decide

theorem witness_RetRule :
    (((ready 0xFF [0x11]).setSp 255).startsWith 0x11 ∧ ((ready 0xFF [0x11]).setSp 255).sp = 255) ∧
    (((ready 0xFF [0x11]).setSp 254).startsWith 0x11 ∧ ((ready 0xFF [0x11]).setSp 254).sp ≠ 255) := by decide

theorem witness_HltRule : (ready 0xFF [0x01]).startsWith 0x01 := by decide

theorem witness_HaltEndsTheLoop : ∃ t, (ready 0 [0x01]).startsWith 0x01 ∧ step (ready 0 [0x01]) = .next t :=
  ⟨_, by decide, rfl⟩

theorem witness_LdiPrnHltComplete : (0 : Byte).toNat = (0 : Fin 8).val ∧ (7 : Byte).toNat = (7 : Fin 8).val := by decide

theorem witness_AddMulComplete : (0 : Byte).toNat = (0 : Fin 8).val ∧ (7 : Byte).toNat = (7 : Fin 8).val := by decide

theorem witness_PushPopComplete :
    (7 : Byte).toNat = (7 : Fin 8).val ∧ (6 : Byte).toNat = (6 : Fin 8).val ∧ (6 : Fin 8) ≠ 7 ∧
    ((ready 0 []).setSp 1).sp ≠ 0 ∧ ((ready 0 []).setSp 254).sp ≠ 255 ∧
    (ready 0 []).mem.read (ready 0 []).sp.toNat ≠ 255 := by decide

theorem witness_CallRetComplete :
    (7 : Byte).toNat = (7 : Fin 8).val ∧ (ready 0xFD []).pc.toNat + 2 ≤ 255 ∧ ((ready 0xFD []).setSp 1).sp ≠ 0 ∧
    ((ready 0xFD []).setSp 254).sp ≠ 255 := by decide

theorem witness_RegisterIndexAboveSevenRaises :
    (7 : Byte).toNat = (7 : Fin 8).val ∧ 7 < (8 : Byte).toNat ∧ 7 < (255 : Byte).toNat ∧ (7 : Byte).toNat ≤ 7 := by decide

theorem witness_RegisterFormsFrame :
    (∃ t, exec (.ldi 7 1) (ready 0 []) = .next t ∧ t.phase ≠ .faulted) ∧
    (∃ t, exec (.add 0 7) (ready 0 []) = .next t ∧ t.phase ≠ .faulted) ∧
    (∃ t, exec (.mul 7 7) (ready 0 []) = .next t ∧ t.phase ≠ .faulted) :=
  ⟨⟨_, rfl, by decide⟩, ⟨_, rfl, by decide⟩, ⟨_, rfl, by decide⟩⟩

theorem witness_PrnHltFrame :
    (∃ t, exec (.prn 7) (ready 0 []) = .next t ∧ t.phase ≠ .faulted) ∧ (∃ t, exec .hlt (ready 0 []) = .next t) :=
  ⟨⟨_, rfl, by decide⟩, ⟨_, rfl⟩⟩

theorem witness_StoringFormsFrame :
    (∃ t, exec (.push 7) (ready 0 []) = .next t ∧ t.phase ≠ .faulted ∧ (ready 0 []).pushSlot = .ok 0xF3) ∧
    (∃ t, exec (.call 0) (ready 0 []) = .next t ∧ t.phase ≠ .faulted) :=
  ⟨⟨_, rfl, by decide, rfl⟩, ⟨_, rfl, by decide⟩⟩

theorem witness_PopRetFrame :
    (∃ t, exec (.pop 7) (ready 0 []) = .next t ∧ t.phase ≠ .faulted) ∧
    (∃ t, exec .ret (ready 0 []) = .next t ∧ t.phase ≠ .faulted) :=
  ⟨⟨_, rfl, by decide⟩, ⟨_, rfl, by decide⟩⟩

theorem witness_FaultEntryChangesNothingElse :
    (∃ t, (ready 256 []).phase = .running ∧ step (ready 256 []) = .next t ∧ t.phase = .faulted) ∧
    (∃ t, (ready 255 []).phase = .running ∧ step (ready 255 []) = .next t ∧ t.phase = .faulted) :=
  ⟨⟨_, rfl, rfl, rfl⟩, ⟨_, rfl, rfl, rfl⟩⟩

theorem witness_AluComputesModulo256 :
    ∃ t r, (ready 0 [0xA0, 0, 8]).fault = none ∧ step (ready 0 [0xA0, 0, 8]) = .next t ∧ t.fault = some r :=
  ⟨_, _, rfl, rfl, rfl⟩

theorem witness_PhaseTransitions :
    (∃ t, (ready 0 [0x01]).startsWith 0x01 ∧ step (ready 0 [0x01]) = .next t) ∧ State.reset.phase = .idle :=
  ⟨⟨_, by decide, rfl⟩, rfl⟩

theorem witness_OnlyResetLeavesAnEnd :
    (State.reset.setPhase .halted).phase = .halted ∧ ((ready 0 []).raise none .illegalInstruction).phase = .faulted ∧
      HostAction.start ≠ .reset := ⟨rfl, rfl, by decide⟩

theorem witness_OutputGrowsOnlyByPrn :
    (∃ t, (ready 0 [0x47, 7]).startsWith 0x47 ∧ step (ready 0 [0x47, 7]) = .next t ∧ t.phase ≠ .faulted) ∧
    (∃ t, (ready 0 [0x47, 8]).startsWith 0x47 ∧ step (ready 0 [0x47, 8]) = .next t ∧ t.phase = .faulted) ∧
    (∃ t, ¬ (ready 0 [0x01]).startsWith 0x47 ∧ step (ready 0 [0x01]) = .next t) :=
  ⟨⟨_, by decide, rfl, by decide⟩, ⟨_, by decide, rfl, rfl⟩, ⟨_, by decide, rfl⟩⟩

theorem witness_OnlyPushAndCallWriteMemory :
    (∃ t, step (ready 0 [0x45, 7]) = .next t ∧ t.mem.read 0xF3 ≠ (ready 0 [0x45, 7]).mem.read 0xF3) ∧
    (∃ t, step ((ready 0 [0x50, 7]).setSp 1) = .next t ∧ t.mem.read 0 ≠ ((ready 0 [0x50, 7]).setSp 1).mem.read 0) :=
  ⟨⟨_, rfl, by decide⟩, ⟨_, rfl, by decide⟩⟩

theorem witness_ControlTransferOnlyByCallAndRet :
    (∃ t, (ready 0 [0x50, 7]).startsWith 0x50 ∧ step (ready 0 [0x50, 7]) = .next t ∧ t.phase ≠ .faulted) ∧
    (∃ t, (ready 0xFF [0x11]).startsWith 0x11 ∧ step (ready 0xFF [0x11]) = .next t ∧ t.phase ≠ .faulted) ∧
    (∃ t, (ready 0xFF [0x01]).startsWith 0x01 ∧ step (ready 0xFF [0x01]) = .next t ∧ t.phase ≠ .faulted) ∧
    (∃ t, (ready 0xFE [0x45, 0]).startsWith 0x45 ∧ step (ready 0xFE [0x45, 0]) = .next t ∧ t.phase ≠ .faulted) ∧
    (∃ t, (ready 0xFD [0xA2, 0, 7]).startsWith 0xA2 ∧ step (ready 0xFD [0xA2, 0, 7]) = .next t ∧ t.phase ≠ .faulted) :=
  ⟨⟨_, by decide, rfl, by decide⟩, ⟨_, by decide, rfl, by decide⟩, ⟨_, by decide, rfl, by decide⟩,
    ⟨_, by decide, rfl, by decide⟩, ⟨_, by decide, rfl, by decide⟩⟩

theorem witness_ProgramCounterNeverWraps :
    (∃ t, (ready 0xFD [0x82, 0, 0]).phase = .running ∧ (ready 0xFD [0x82, 0, 0]).pc.toNat ≤ 256 ∧
      step (ready 0xFD [0x82, 0, 0]) = .next t ∧ t.pc.toNat = 256) ∧
    (∃ t, (ready 256 []).phase = .running ∧ (ready 256 []).pc.toNat ≤ 256 ∧ step (ready 256 []) = .next t ∧
      t.pc.toNat = 256) :=
  ⟨⟨_, rfl, by decide, rfl, rfl⟩, ⟨_, rfl, by decide, rfl, rfl⟩⟩

theorem witness_StepChangesOnlyItsRegisters :
    (∃ t, step (ready 0 [0x82, 6, 1]) = .next t ∧ t.getReg 6 ≠ (ready 0 [0x82, 6, 1]).getReg 6) ∧
    (∃ t, step (ready 0 [0x11]) = .next t ∧ t.getReg 7 ≠ (ready 0 [0x11]).getReg 7) :=
  ⟨⟨_, rfl, by decide⟩, ⟨_, rfl, by decide⟩⟩

theorem witness_RegistersButSpAreAlike : (Equiv.swap (5 : Fin 8) 0) 7 = 7 ∧ (Equiv.swap (5 : Fin 8) 0) 5 = 0 := by decide

theorem witness_PushThenPop :
    (0 : Byte).toNat = (0 : Fin 8).val ∧ (7 : Byte).toNat = (7 : Fin 8).val ∧ ((ready 0 []).setSp 1).sp ≠ 0 ∧
    (ready 0 []).getReg 0 ≠ 255 ∧ ((ready 0 []).setReg 0 255).getReg 0 = 255 ∧ ((ready 0 []).setReg 0 255).sp ≠ 0 := by
  decide

theorem witness_CallThenRet :
    let s := (ready 0 [0x50, 1, 0x11]).setReg 1 2
    ∃ t u, s.startsWith 0x50 ∧ step s = .next t ∧ t.startsWith 0x11 ∧ step t = .next u ∧ u.phase = .running :=
  ⟨_, _, by decide, rfl, by decide, rfl, rfl⟩

theorem witness_PushedByteIsFetchedNext :
    (let s := ((ready 6 [0x45, 0]).setSp 9).setReg 0 1
     ∃ t, s.startsWith 0x45 ∧ (s.byteAt 1).toNat = (0 : Fin 8).val ∧ s.sp.toNat = s.pc.toNat + 3 ∧ step s = .next t ∧
       s.getReg 0 = 0x01) ∧
    (let s := (ready 252 [0x45, 0]).setSp 255
     ∃ t, s.startsWith 0x45 ∧ (s.byteAt 1).toNat = (0 : Fin 8).val ∧ s.sp.toNat = s.pc.toNat + 3 ∧ step s = .next t ∧
       s.getReg 0 ∉ specOpcodes) :=
  ⟨⟨_, by decide, by decide, by decide, rfl, by decide⟩, ⟨_, by decide, by decide, by decide, rfl, by decide⟩⟩

theorem witness_LoadRule :
    256 < (List.replicate 257 (1 : Byte)).length ∧ (ready 0 []).phase ≠ .idle ∧ State.reset.phase = .idle ∧
      (List.replicate 256 (1 : Byte)).length ≤ 256 := by
  rw [List.length_replicate, List.length_replicate]; decide

theorem witness_HostWriteRule : State.reset.phase = .idle ∧ (ready 0 []).phase ≠ .idle := by decide

theorem witness_StartRule : State.reset.phase = .idle ∧ (ready 0 []).phase ≠ .idle := by decide

theorem witness_StackPointerIsSetAtStart : Reachable State.reset ∧ State.reset.phase = .idle := ⟨.reset, rfl⟩

theorem witness_PlacedWordRunsNext :
    (ready 253 []).pc.toNat ≤ 253 ∧ decodeTableWord 24 0x080082 = some (.ldi 0 8) := by decide

theorem witness_StepKeepsInvariant : ∃ t, Inv State.reset.start ∧ step State.reset.start = .next t := by
  refine ⟨_, ⟨by decide, by decide, by decide, ?_, ?_⟩, rfl⟩
  · intro r h; cases h
  · intro h; cases h

theorem witness_HostKeepsInvariant : Inv State.reset.start := witness_StepKeepsInvariant.elim fun _ h => h.1

theorem witness_ReachableStatesSatisfyInvariant : Reachable (State.reset.host .start) := .host _ _ .reset

theorem witness_CanonicalMemoryIsUnique :
    Memory.wf [(0, 0x82), (255, 1)] = true ∧
    ∀ a, a < 256 → Memory.read [(0, 0x82), (255, 1)] a = Memory.read [(0, 0x82), (255, 1)] a := ⟨by decide, fun _ _ => rfl⟩

theorem witness_RunResultIsFinal :
    (∃ t, run 1 (ready 0 [0x01]) = some t ∧ (ready 0 [0x01]).phase = .running) ∧ run 1 (ready 0 [0x82, 0, 0]) = none :=
  ⟨⟨_, rfl, rfl⟩, by decide⟩

end Sys2Proof.Tests
end

section
/-! SUPPORT. What an instruction does with a register operand above 7 (R9, R72): the first failing CheckReg, in operand
order, ends it in a RegisterIndex fault. -/

namespace Sys2Proof.Machine

/-- The fault entry of an OutOfBoundsAddress, in the words of the statements (R172). -/
theorem next_raise_outOfBounds (s : State) (op : Option Byte) (k : OobKind) (v : Int) :
    .next (s.raise op (.outOfBounds k v)) = s.oobFault op k v := rfl

/-- An instruction whose staged writes fail with an OutOfBoundsAddress. -/
theorem finish_outOfBounds (i : Instr) (s : State) (k : OobKind) (v : Int) :
    finish i s (.error (.outOfBounds k v)) = s.oobFault (some i.opcode) k v := by
  rw [finish_error, next_raise_outOfBounds]

/-- A computation that begins with CheckReg of an index above 7 fails there, whatever stands after it. -/
theorem checkReg_bind_error {α : Type} {r : Byte} (h : 7 < r.toNat) (f : Fin 8 → Except CoreError α) :
    (checkReg r >>= f) = .error (.outOfBounds .registerIndex r.toNat) := by
  rw [checkReg_error h]; rfl

/-- The ALU instructions check `a` before `b` (R120). -/
theorem aluApply_first_error (op : AluOp) {a : Byte} (h : 7 < a.toNat) (b : Byte) (s : State) :
    aluApply op a b s = .error (.outOfBounds .registerIndex a.toNat) :=
  checkReg_bind_error h _

/-- Once `a` names a register, an index `b` above 7 is what the ALU instructions raise. -/
theorem aluApply_second_error (op : AluOp) {a b : Byte} (ha : a.toNat ≤ 7) (hb : 7 < b.toNat) (s : State) :
    aluApply op a b s = .error (.outOfBounds .registerIndex b.toNat) := by
  have hd : checkReg a = .ok ⟨a.toNat, by omega⟩ := checkReg_ok rfl
  rw [aluApply, hd]
  exact checkReg_bind_error hb _

/-- Every instruction with a register operand checks its first one before anything else it does. -/
theorem exec_first_registerIndex {i : Instr} {r : Byte} {rest : List Byte} (hi : i.registerOperands = r :: rest)
    (h : 7 < r.toNat) (s : State) : exec i s = s.oobFault (some i.opcode) .registerIndex r.toNat := by
  rw [← finish_outOfBounds]
  cases i with
  | hlt | ret => cases hi
  | push | pop | prn | call | ldi => cases hi; exact congrArg (finish _ s) (checkReg_bind_error h _)
  | add | mul => cases hi; exact congrArg (finish _ s) (aluApply_first_error _ h _ s)

/-- ADD and MUL, the instructions with two register operands, check the second one right after a valid first one. -/
theorem exec_second_registerIndex {i : Instr} {a r : Byte} (hi : i.registerOperands = [a, r]) (ha : a.toNat ≤ 7)
    (h : 7 < r.toNat) (s : State) : exec i s = s.oobFault (some i.opcode) .registerIndex r.toNat := by
  rw [← finish_outOfBounds]
  cases i with
  | hlt | ret | push | pop | prn | call | ldi => cases hi
  | add | mul => cases hi; exact congrArg (finish _ s) (aluApply_second_error _ ha h s)

/-- Settles O28, from the model's law of CheckReg and the two lemmas on an instruction's first and second register
operand. -/
theorem registerIndexAboveSevenRaises : Obligations.RegisterIndexAboveSevenRaises := by
  refine ⟨fun _ _ => checkReg_ok, fun s r b h => ?_⟩
  have hfirst {i : Instr} {rest : List Byte} (hi : i.registerOperands = r :: rest) := exec_first_registerIndex hi h s
  have hsecond {i : Instr} (hi : i.registerOperands = [b, r]) (hb : b.toNat ≤ 7) :=
    exec_second_registerIndex hi hb h s
  exact ⟨hfirst (i := .ldi r b) rfl, hfirst (i := .prn r) rfl, hfirst (i := .push r) rfl, hfirst (i := .pop r) rfl,
    hfirst (i := .call r) rfl, hfirst (i := .add r b) rfl, hfirst (i := .mul r b) rfl,
    fun hb => ⟨hsecond (i := .add b r) rfl hb, hsecond (i := .mul b r) rfl hb⟩⟩

end Sys2Proof.Machine
end

section
/-! SUPPORT. The bytes a fetched instruction was decoded from: memory holds its encoding at the pc (R71, R91). -/

namespace Sys2Proof.Machine

theorem oneOperand_eq_ok {op : Byte} {mk : Byte → Instr} {bytes rest : List Byte} {i : Instr}
    (h : oneOperand op mk bytes = .ok (i, rest)) : ∃ r, i = mk r ∧ bytes = r :: rest := by
  cases bytes with
  | nil => cases h
  | cons r _ => cases h; exact ⟨r, rfl, rfl⟩

theorem twoOperands_eq_ok {op : Byte} {mk : Byte → Byte → Instr} {bytes rest : List Byte} {i : Instr}
    (h : twoOperands op mk bytes = .ok (i, rest)) : ∃ a b, i = mk a b ∧ bytes = a :: b :: rest := by
  match bytes, h with
  | a :: b :: _, h => cases h; exact ⟨a, b, rfl, rfl⟩

/-- The decoder accepts only the encoding of what it answers. -/
theorem decode_eq_ok {bytes rest : List Byte} {i : Instr} (h : decode bytes = .ok (i, rest)) :
    bytes = encode i ++ rest := by
  cases bytes with
  | nil => cases h
  | cons op tail =>
    cases hm : dispatch op with
    | none => simp [decode, hm] at h
    | some m =>
      obtain rfl := (dispatch_some_iff op m).mp hm
      simp only [decode, hm] at h
      cases m with
      | hlt | ret => cases h; rfl
      | push | pop | prn | call => obtain ⟨r, rfl, rfl⟩ := oneOperand_eq_ok h; rfl
      | ldi | add | mul => obtain ⟨a, b, rfl, rfl⟩ := twoOperands_eq_ok h; rfl

/-- Only a successful decode of the bytes at the pc makes a fetch succeed. -/
theorem fetch_eq_ok {s : State} {i : Instr} (h : s.fetch = .ok i) : ∃ rest, decode s.fetchBytes = .ok (i, rest) := by
  unfold State.fetch at h
  split at h
  · cases h; exact ⟨_, ‹_›⟩
  all_goals cases h

/-- Each byte a fetch sees lies within memory, at its distance from the pc. -/
theorem fetchBytes_getElem? {s : State} {k : Nat} {b : Byte} (h : s.fetchBytes[k]? = some b) :
    s.pc.toNat + k ≤ 255 ∧ s.byteAt k = b := by
  rcases fetchBytes_cases s with ⟨hpc, hb⟩ | ⟨hpc, hb⟩ | ⟨hpc, hb⟩ | ⟨hpc, hb⟩ <;> rw [hb] at h
  · cases h
  · match k, h with
    | 0, h => exact ⟨by omega, Option.some.inj h⟩
  · match k, h with
    | 0, h | 1, h => exact ⟨by omega, Option.some.inj h⟩
  · match k, h with
    | 0, h | 1, h | 2, h => exact ⟨by omega, Option.some.inj h⟩

/-- Memory holds the encoding of a fetched instruction at the pc, within the address space (R71). -/
theorem byteAt_of_fetch {s : State} {i : Instr} (h : s.fetch = .ok i) {k : Nat} {b : Byte}
    (hb : (encode i)[k]? = some b) : s.pc.toNat + k ≤ 255 ∧ s.byteAt k = b := by
  obtain ⟨rest, hd⟩ := fetch_eq_ok h
  obtain ⟨hk, -⟩ := List.getElem?_eq_some_iff.mp hb
  apply fetchBytes_getElem?
  rw [decode_eq_ok hd, List.getElem?_append_left hk, hb]

/-- The iteration that fetches an instruction starts with its opcode. -/
theorem startsWith_opcode_of_fetch {s : State} {i : Instr} (hp : s.phase = .running) (h : s.fetch = .ok i) :
    s.startsWith i.opcode := by
  obtain ⟨hpc, hop⟩ := byteAt_of_fetch h (k := 0) rfl
  exact ⟨hp, hpc, hop⟩

end Sys2Proof.Machine
end

section
/-! SUPPORT. How the output changes (R31): PRN appends its register's value, and no other instruction and no raise
touches it. -/

namespace Sys2Proof.Machine

/-- Where a sequence of checks and staged writes succeeds, its first part does, and the rest from there. -/
theorem bind_eq_ok {α β : Type} {x : Except CoreError α} {g : α → Except CoreError β} {y : β} (h : (x >>= g) = .ok y) :
    ∃ a, x = .ok a ∧ g a = .ok y := by
  cases x with
  | ok a => exact ⟨a, rfl, h⟩
  | error e => cases h

theorem pushByte_out {s t : State} {v : Byte} (h : s.pushByte v = .ok t) : t.out = s.out := by
  rcases s.pushByte_cases v with ⟨-, hp⟩ | ⟨-, hp⟩ <;> rw [hp] at h <;> cases h
  rfl

theorem popSp_out {s t : State} (h : s.popSp = .ok t) : t.out = s.out := by
  rcases s.popSp_cases with ⟨-, hp⟩ | ⟨-, hp⟩ <;> rw [hp] at h <;> cases h
  rfl

theorem aluApply_out {op : AluOp} {a b : Byte} {s t : State} (h : aluApply op a b s = .ok t) : t.out = s.out := by
  obtain ⟨d, -, h⟩ := bind_eq_ok h
  obtain ⟨e, -, h⟩ := bind_eq_ok h
  obtain ⟨v, -, h⟩ := bind_eq_ok h
  cases h
  rfl

/-- An instruction whose staged writes leave the output alone leaves it alone, since a raise does so, too. -/
theorem finish_out {i : Instr} {s t : State} {x : Except CoreError State} (hx : ∀ u, x = .ok u → u.out = s.out)
    (h : finish i s x = .next t) : t.out = s.out := by
  rcases finish_next h with hok | ⟨e, -, rfl⟩
  · exact hx t hok
  · rfl

/-- No instruction but PRN touches the output. -/
theorem exec_out_of_ne_prn {i : Instr} {s t : State} (hi : ∀ r, i ≠ .prn r) (h : exec i s = .next t) :
    t.out = s.out := by
  cases i with
  | prn r => exact absurd rfl (hi r)
  | hlt => cases h; rfl
  | add a b | mul a b => exact finish_out (fun u => aluApply_out) h
  | ldi r imm =>
    refine finish_out (fun u hu => ?_) h
    obtain ⟨d, -, hu⟩ := bind_eq_ok hu
    cases hu
    rfl
  | push r =>
    refine finish_out (fun u hu => ?_) h
    obtain ⟨d, -, hu⟩ := bind_eq_ok hu
    obtain ⟨v, hv, hu⟩ := bind_eq_ok hu
    cases hu
    exact (pushByte_out hv :)
  | pop r =>
    refine finish_out (fun u hu => ?_) h
    obtain ⟨d, -, hu⟩ := bind_eq_ok hu
    obtain ⟨v, hv, hu⟩ := bind_eq_ok hu
    cases hu
    exact (popSp_out hv :)
  | call r =>
    refine finish_out (fun u hu => ?_) h
    obtain ⟨d, -, hu⟩ := bind_eq_ok hu
    obtain ⟨a, -, hu⟩ := bind_eq_ok hu
    obtain ⟨v, hv, hu⟩ := bind_eq_ok hu
    cases hu
    exact (pushByte_out hv :)
  | ret =>
    refine finish_out (fun u hu => ?_) h
    obtain ⟨v, hv, hu⟩ := bind_eq_ok hu
    cases hu
    exact (popSp_out hv :)

/-- PRN of a register appends its value and moves the pc on, and a PRN that raises emits nothing (R115). -/
theorem exec_prn_next {r : Byte} {s t : State} (h : exec (.prn r) s = .next t) :
    (∃ d : Fin 8, r.toNat = d.val ∧ t = (s.emit (s.getReg d)).advance 2) ∨ (t.phase = .faulted ∧ t.out = s.out) := by
  rcases finish_next h with hok | ⟨e, -, rfl⟩
  · obtain ⟨d, hd, hok⟩ := bind_eq_ok hok
    cases hok
    exact .inl ⟨d, (checkReg_ok_iff r d).mp hd, rfl⟩
  · exact .inr ⟨rfl, rfl⟩

/-- PRN is the instruction of opcode 0x47 (R75). -/
theorem eq_prn_of_opcode {i : Instr} (h : i.opcode = 0x47) : ∃ r, i = .prn r := by
  have hm : Mnemonic.prn = i.mnemonic := Option.some.inj ((dispatch_some_iff 0x47 _).mpr h.symm)
  cases i with
  | prn r => exact ⟨r, rfl⟩
  | _ => cases hm

/-- Settles O37: a step that runs no PRN keeps the output, and one that runs PRN appends its register's value or
raises. -/
theorem outputGrowsOnlyByPrn : Obligations.OutputGrowsOnlyByPrn := by
  refine ⟨rfl, fun s t h => ?_⟩
  rcases step_cases h with ⟨hp, rfl⟩ | ⟨hp, i, hf, hi⟩ | ⟨-, e, -, rfl⟩
  · exact ⟨fun ⟨hrun, _⟩ => absurd hrun hp, fun _ => rfl⟩
  · have hop := startsWith_opcode_of_fetch hp hf
    by_cases hprn : ∃ r, i = .prn r
    · obtain ⟨r, rfl⟩ := hprn
      obtain ⟨-, hr⟩ := byteAt_of_fetch hf (k := 1) rfl
      rcases exec_prn_next hi with ⟨d, hd, rfl⟩ | ⟨hfault, hout⟩
      · refine ⟨fun _ _ => ⟨d, by rw [hr, hd], rfl⟩, ?_⟩
        rintro (hs | hfault)
        · exact absurd hop hs
        · exact absurd (hp.symm.trans hfault) (by decide)
      · exact ⟨fun _ hnf => absurd hfault hnf, fun _ => hout⟩
    · obtain ⟨-, -, hbyte⟩ := hop
      have hout := exec_out_of_ne_prn (fun r hr => hprn ⟨r, hr⟩) hi
      exact ⟨fun ⟨_, _, hs⟩ => absurd (eq_prn_of_opcode (hbyte.symm.trans hs)) hprn, fun _ => hout⟩
  · exact ⟨fun _ hnf => absurd rfl hnf, fun _ => rfl⟩

end Sys2Proof.Machine
end

section
/-! SUPPORT. Renaming registers by a permutation that keeps R7 commutes with every shared operation, and so with every
instruction (R23). -/

namespace Sys2Proof.Machine

/-! ### The state operations at a renamed state -/

@[simp] theorem getReg_rename (f : Equiv.Perm (Fin 8)) (s : State) (k : Fin 8) :
    (s.rename f).getReg k = s.getReg (f.symm k) := by
  simp [State.rename, State.getReg]

/-- A register write at a renamed state, to the renamed register. -/
theorem rename_setReg (f : Equiv.Perm (Fin 8)) (s : State) (d : Fin 8) (v : Byte) :
    (s.setReg d v).rename f = (s.rename f).setReg (f d) v := by
  have hregs : ((s.setReg d v).rename f).regs = ((s.rename f).setReg (f d) v).regs :=
    regs_ext fun j => by simp [State.getReg_setReg, Equiv.symm_apply_eq]
  exact congrArg (fun r => { s with regs := r }) hregs

theorem rename_writeMem (f : Equiv.Perm (Fin 8)) (s : State) (a v : Byte) :
    (s.writeMem a v).rename f = (s.rename f).writeMem a v := rfl

theorem rename_setPc (f : Equiv.Perm (Fin 8)) (s : State) (p : PcWord) :
    (s.setPc p).rename f = (s.rename f).setPc p := rfl

theorem rename_advance (f : Equiv.Perm (Fin 8)) (s : State) (n : Nat) :
    (s.advance n).rename f = (s.rename f).advance n := rfl

theorem rename_emit (f : Equiv.Perm (Fin 8)) (s : State) (v : Byte) : (s.emit v).rename f = (s.rename f).emit v := rfl

theorem rename_raise (f : Equiv.Perm (Fin 8)) (s : State) (op : Option Byte) (e : CoreError) :
    (s.raise op e).rename f = (s.rename f).raise op e := rfl

@[simp] theorem readMem_rename (f : Equiv.Perm (Fin 8)) (s : State) (a : Byte) :
    (s.rename f).readMem a = s.readMem a := rfl

@[simp] theorem returnAddress_rename (f : Equiv.Perm (Fin 8)) (s : State) :
    (s.rename f).returnAddress = s.returnAddress := rfl

/-! ### Operands and the ends of instructions -/

/-- CheckReg of a renamed operand: the renamed register, or the same raise. -/
theorem checkReg_renameByte (f : Equiv.Perm (Fin 8)) (b : Byte) : checkReg (renameByte f b) = f <$> checkReg b := by
  rcases checkReg_cases b with ⟨d, hd, hc⟩ | ⟨hb, hc⟩
  · have hlt : b.toNat < 8 := by omega
    obtain rfl : ⟨b.toNat, hlt⟩ = d := Fin.ext hd
    rw [hc, renameByte, dif_pos hlt]
    exact checkReg_ok ((BitVec.toNat_ofNat ..).trans (Nat.mod_eq_of_lt (by omega)))
  · rw [renameByte, dif_neg (by omega), hc]
    rfl

theorem opcode_mapRegisters (g : Byte → Byte) (i : Instr) : (i.mapRegisters g).opcode = i.opcode := by
  cases i <;> rfl

/-- An instruction whose staged writes are renamed ends in the renamed result. -/
theorem finish_rename {f : Equiv.Perm (Fin 8)} {i : Instr} {s : State} {x y : Except CoreError State}
    (h : y = State.rename f <$> x) :
    finish (i.mapRegisters (renameByte f)) (s.rename f) y = mapResult (State.rename f) (finish i s x) := by
  subst h
  cases x with
  | ok t => rfl
  | error e =>
    rw [finish_error, mapResult, rename_raise, ← opcode_mapRegisters (renameByte f) i]
    rfl

/-- ADD and MUL read and write the renamed registers (R120). -/
theorem aluApply_rename (f : Equiv.Perm (Fin 8)) (op : AluOp) (a b : Byte) (s : State) :
    aluApply op (renameByte f a) (renameByte f b) (s.rename f) = State.rename f <$> aluApply op a b s := by
  simp [aluApply, checkReg_renameByte, rename_setReg, rename_advance]

/-! ### The stack, whose pointer the renaming keeps -/

section
variable {f : Equiv.Perm (Fin 8)} (hf : f 7 = 7)
include hf

theorem sp_rename (s : State) : (s.rename f).sp = s.sp := by
  rw [State.sp, getReg_rename, State.sp, Config.spIndex, (Equiv.symm_apply_eq f).mpr hf.symm]

theorem rename_setSp (s : State) (v : Byte) : (s.setSp v).rename f = (s.rename f).setSp v := by
  rw [State.setSp, rename_setReg, State.setSp, Config.spIndex, hf]

theorem pushSlot_rename (s : State) : (s.rename f).pushSlot = s.pushSlot := by
  rw [State.pushSlot, State.pushSlot, sp_rename hf]

theorem pushByte_rename (s : State) (v : Byte) : (s.rename f).pushByte v = State.rename f <$> s.pushByte v := by
  simp [State.pushByte, pushSlot_rename hf, rename_setSp hf, rename_writeMem]

theorem popSp_rename (s : State) : (s.rename f).popSp = State.rename f <$> s.popSp := by
  rw [State.popSp, State.popSp, sp_rename hf, ← rename_setSp hf]
  split <;> rfl

/-- Every instruction commutes with the renaming. -/
theorem exec_rename (i : Instr) (s : State) :
    exec (i.mapRegisters (renameByte f)) (s.rename f) = mapResult (State.rename f) (exec i s) := by
  cases i with
  | hlt => rfl
  | ret => exact finish_rename (i := .ret) (by simp [popSp_rename hf, sp_rename hf, rename_setPc])
  | push r => exact finish_rename (i := .push r) (by simp [checkReg_renameByte, pushByte_rename hf, rename_advance])
  | pop r =>
    exact finish_rename (i := .pop r)
      (by simp [checkReg_renameByte, sp_rename hf, ← rename_setReg, popSp_rename hf, rename_advance])
  | prn r => exact finish_rename (i := .prn r) (by simp [checkReg_renameByte, rename_emit, rename_advance])
  | call r => exact finish_rename (i := .call r) (by simp [checkReg_renameByte, pushByte_rename hf, rename_setPc])
  | ldi r imm => exact finish_rename (i := .ldi r imm) (by simp [checkReg_renameByte, rename_setReg, rename_advance])
  | add a b => exact finish_rename (i := .add a b) (aluApply_rename f .add a b s)
  | mul a b => exact finish_rename (i := .mul a b) (aluApply_rename f .mul a b s)

end

/-- Settles O42, from the commutation of every instruction with a renaming that keeps R7. -/
theorem registersButSpAreAlike : Obligations.RegistersButSpAreAlike :=
  fun _ i s hf => exec_rename hf i s

end Sys2Proof.Machine
end

section
/-! SUPPORT. The decoder against R75's table: it reads back every encoding, whatever follows, and rejects every other
first byte; the length column gives each instruction's operand count (R70, R75, R78). -/

namespace Sys2Proof.Machine

/-- The map's opcodes are all in R75's list. -/
theorem opcode_mem_specOpcodes (m : Mnemonic) : m.opcode ∈ specOpcodes := by
  cases m <;> decide

/-- The map has no entry for a byte outside R75's list (R78). -/
theorem dispatch_eq_none {op : Byte} (h : op ∉ specOpcodes) : dispatch op = none := by
  refine Option.eq_none_iff_forall_ne_some.mpr fun m hm => h ?_
  rw [(dispatch_some_iff op m).mp hm]
  exact opcode_mem_specOpcodes m

theorem decode_illegalOpcode {op : Byte} (h : op ∉ specOpcodes) (rest : List Byte) :
    decode (op :: rest) = .error (.illegalOpcode op) := by
  rw [decode, dispatch_eq_none h]

/-- The decoder reads an encoded instruction back and leaves whatever follows it. -/
theorem decode_encode_append (i : Instr) (rest : List Byte) : decode (encode i ++ rest) = .ok (i, rest) := by
  have hm : dispatch i.opcode = some i.mnemonic := (dispatch_some_iff _ _).mpr rfl
  rw [encode, List.cons_append, decode, hm]
  cases i <;> rfl

theorem operands_length_le_two (i : Instr) : i.operands.length ≤ 2 := by
  cases i <;> simp [Instr.operands]

/-- R75's length column counts the opcode byte and the operand bytes. -/
theorem specLength_opcode (i : Instr) : specLength i.opcode = 1 + i.operands.length := by
  cases i <;> rfl

/-- Settles O2: the nine words are encodings, which decode back; any other first byte has no entry in the map. -/
theorem opcodeMapIsExactlyNine : Obligations.OpcodeMapIsExactlyNine := fun a b rest =>
  have hword (i : Instr) := decode_encode_append i rest
  ⟨hword .hlt, hword .ret, hword (.push a), hword (.pop a), hword (.prn a), hword (.call a), hword (.ldi a b),
    hword (.add a b), hword (.mul a b), fun _ hop => decode_illegalOpcode hop rest⟩

/-- Settles O4: bytes that decode are the instruction's encoding and the rest, and its opcode and operand bytes are as
many as R75's length column says. -/
theorem lengthIsFixedByOpcode : Obligations.LengthIsFixedByOpcode := fun _ _ i h =>
  ⟨i.opcode, i.operands, decode_eq_ok h, rfl, rfl, operands_length_le_two i, (specLength_opcode i).symm⟩

end Sys2Proof.Machine
end

section
/-! SUPPORT. The execution loop: an iteration begins with the opcode byte at the pc (R92), an opcode outside the map
raises there (R94), and the loop ends at the first check that finds the core not Running (R90, R96). -/

namespace Sys2Proof.Machine

/-! ### The opcode that is fetched -/

/-- At a pc within memory the bytes a fetch sees begin with the opcode byte, address 255 included. -/
theorem fetchBytes_eq_cons {s : State} (h : s.pc.toNat ≤ 255) : ∃ rest, s.fetchBytes = s.byteAt 0 :: rest := by
  rcases fetchBytes_cases s with ⟨hpc, -⟩ | ⟨-, hb⟩ | ⟨-, hb⟩ | ⟨-, hb⟩
  · omega
  all_goals exact ⟨_, hb⟩

theorem fetch_of_decode {s : State} {i : Instr} {rest : List Byte} (h : decode s.fetchBytes = .ok (i, rest)) :
    s.fetch = .ok i := by
  rw [State.fetch, h]

/-- The opcode is looked up before any operand byte, so only its own address has to lie within memory (R78, R94). -/
theorem fetch_illegalOpcode {s : State} (hpc : s.pc.toNat ≤ 255) (hop : s.byteAt 0 ∉ specOpcodes) :
    s.fetch = .error ⟨some (s.byteAt 0), .illegalInstruction⟩ := by
  obtain ⟨rest, hb⟩ := fetchBytes_eq_cons hpc
  rw [State.fetch, hb, decode_illegalOpcode hop]

/-- The fault entry of an IllegalInstruction, in the words of the statements (R94, R172). -/
theorem raise_illegalInstruction (s : State) (op : Byte) :
    s.raise (some op) .illegalInstruction = s.withFault (s.illegalRecord op) := rfl

/-- Settles O8: such a byte makes the fetch raise, and the step is the fault entry of what the fetch raised. -/
theorem illegalOpcodeFaults : Obligations.IllegalOpcodeFaults := by
  intro s hp hpc hop
  rw [step_raised hp (fetch_illegalOpcode hpc hop), raise_illegalInstruction]

/-! ### The step at an HLT and the end of a run -/

/-- HLT is its opcode byte alone, so it is fetched at every address of memory. -/
theorem fetch_hlt {s : State} (h : s.startsWith 0x01) : s.fetch = .ok .hlt := by
  obtain ⟨-, hpc, hop⟩ := h
  obtain ⟨rest, hb⟩ := fetchBytes_eq_cons hpc
  rw [hop] at hb
  exact fetch_of_decode ((congrArg decode hb).trans (decode_encode_append .hlt rest))

/-- The step at an HLT changes the phase alone (R101). -/
theorem step_hlt {s : State} (h : s.startsWith 0x01) : step s = .next (s.setPhase .halted) :=
  step_fetched h.1 (fetch_hlt h)

/-- Outside Running a run ends at once, under any budget (R90). -/
theorem run_outside {s : State} (h : s.phase ≠ .running) (n : Nat) : run n s = some s := by
  cases n <;> simp [run, State.running, h]

/-- While Running a run takes one step and goes on from its result with the rest of the budget (R90). -/
theorem run_succ {s t : State} (hp : s.phase = .running) (h : step s = .next t) (n : Nat) :
    run (n + 1) s = run n t := by
  simp [run, State.running, hp, h]

/-- Settles O23: the step at an HLT leaves Running, and outside Running neither a run nor a step does anything. -/
theorem haltEndsTheLoop : Obligations.HaltEndsTheLoop := by
  intro s t n hs h
  obtain rfl : s.setPhase .halted = t := Host.Outcome.next.inj ((step_hlt hs).symm.trans h)
  have hend : (s.setPhase .halted).phase ≠ .running := by simp
  exact ⟨rfl, (run_succ hs.1 h n).trans (run_outside hend n), step_outside hend⟩

end Sys2Proof.Machine
end

section
/-! SUPPORT. What a fetch answers, from the bytes memory holds at the pc: an instruction whose encoding lies there within
memory is fetched (R71, R91), and a listed opcode one of whose operand bytes lies past address 255 raises FetchAddress 256
(R93). -/

namespace Sys2Proof.Machine

/-- A fetch sees the byte at each of the three addresses that lies within memory. -/
theorem getElem?_fetchBytes {s : State} {k : Nat} (hk : k < 3) (h : s.pc.toNat + k ≤ 255) :
    s.fetchBytes[k]? = some (s.byteAt k) := by
  rcases fetchBytes_cases s with ⟨hpc, hb⟩ | ⟨hpc, hb⟩ | ⟨hpc, hb⟩ | ⟨hpc, hb⟩ <;> rw [hb]
  · omega
  · match k, hk with
    | 0, _ => rfl
    | 1, _ | 2, _ => omega
  · match k, hk with
    | 0, _ | 1, _ => rfl
    | 2, _ => omega
  · match k, hk with
    | 0, _ | 1, _ | 2, _ => rfl

/-- An encoding that memory holds at the pc is fetched, the converse of `byteAt_of_fetch`. -/
theorem fetch_of_byteAt {s : State} {i : Instr} (hlen : s.pc.toNat + (encode i).length ≤ 256)
    (hb : ∀ k b, (encode i)[k]? = some b → s.byteAt k = b) : s.fetch = .ok i := by
  have hprefix : encode i <+: s.fetchBytes := by
    refine List.prefix_iff_getElem?.mpr fun k hk => ?_
    have hthree : (encode i).length ≤ 3 := Nat.succ_le_succ (operands_length_le_two i)
    rw [getElem?_fetchBytes (by omega) (by omega), hb k _ (List.getElem?_eq_getElem hk)]
  obtain ⟨rest, hrest⟩ := hprefix
  exact fetch_of_decode ((congrArg decode hrest.symm).trans (decode_encode_append i rest))

/-- Where an iteration starts with an instruction's opcode and its operand bytes follow within memory, the step runs
it. -/
theorem step_of_operands {s : State} {i : Instr} (h : s.startsWith i.opcode)
    (hlen : s.pc.toNat + i.operands.length ≤ 255)
    (hops : i.operands = (List.range i.operands.length).map fun k => s.byteAt (k + 1)) : step s = exec i s := by
  obtain ⟨hp, -, hop⟩ := h
  refine step_fetched hp (fetch_of_byteAt (Nat.succ_le_succ hlen) fun k b hb => ?_)
  match k, hb with
  | 0, hb => exact hop.trans (Option.some.inj hb)
  | k + 1, hb =>
    obtain ⟨hk, rfl⟩ := List.getElem?_eq_some_iff.mp (show i.operands[k]? = some b from hb)
    rw [List.getElem_of_eq hops, List.getElem_map, List.getElem_range]

/-- R75's list has only the map's opcodes. -/
theorem exists_opcode_of_mem_specOpcodes {op : Byte} (h : op ∈ specOpcodes) : ∃ m : Mnemonic, m.opcode = op := by
  obtain ⟨m, -, hm⟩ := List.mem_map.mp (show op ∈ Mnemonic.all.map Mnemonic.opcode from h)
  exact ⟨m, hm⟩

/-- With fewer operand bytes than R75's length column asks for, the decoder names the first one missing. -/
theorem decode_missingOperand {m : Mnemonic} {operands : List Byte}
    (h : operands.length + 1 < specLength m.opcode) :
    decode (m.opcode :: operands) = .error (.missingOperand m.opcode (operands.length + 1)) := by
  rw [decode, (dispatch_some_iff _ m).mpr rfl]
  cases m with
  | hlt | ret => exact absurd (show operands.length + 1 < 1 from h) (by omega)
  | push | pop | prn | call =>
    match operands, (show operands.length + 1 < 2 from h) with
    | [], _ => rfl
  | ldi | add | mul =>
    match operands, (show operands.length + 1 < 3 from h) with
    | [], _ | [_], _ => rfl

theorem specLength_le_three (op : Byte) : specLength op ≤ 3 := by
  unfold specLength
  split_ifs <;> decide

/-- From address 254 on, a fetch sees the opcode and the bytes up to address 255. -/
theorem fetchBytes_eq_cons_near_end {s : State} (hlow : 254 ≤ s.pc.toNat) (hhigh : s.pc.toNat ≤ 255) :
    ∃ rest, s.fetchBytes = s.byteAt 0 :: rest ∧ s.pc.toNat + (rest.length + 1) = 256 := by
  rcases fetchBytes_cases s with ⟨hpc, -⟩ | ⟨hpc, hb⟩ | ⟨hpc, hb⟩ | ⟨hpc, -⟩
  · omega
  · exact ⟨_, hb, by rw [hpc]; rfl⟩
  · exact ⟨_, hb, by rw [hpc]; rfl⟩
  · omega

/-- A missing operand byte makes the fetch raise with that byte's address. -/
theorem fetch_of_missingOperand {s : State} {op : Byte} {k : Nat}
    (h : decode s.fetchBytes = .error (.missingOperand op k)) :
    s.fetch = .error ⟨some op, .outOfBounds .fetchAddress (s.pc.toNat + k : Nat)⟩ := by
  rw [State.fetch, h]

/-- A listed opcode one of whose operand bytes lies past address 255 makes the fetch raise: the lowest such address is
256 (R93). -/
theorem fetch_missingOperand {s : State} {op : Byte} (hpc : s.pc.toNat ≤ 255) (hbyte : s.byteAt 0 = op)
    (hop : op ∈ specOpcodes) (hlen : 256 < s.pc.toNat + specLength op) :
    s.fetch = .error ⟨some op, .outOfBounds .fetchAddress 256⟩ := by
  obtain ⟨m, rfl⟩ := exists_opcode_of_mem_specOpcodes hop
  have hthree := specLength_le_three m.opcode
  obtain ⟨rest, hb, hend⟩ := fetchBytes_eq_cons_near_end (s := s) (by omega) hpc
  have hd : decode s.fetchBytes = .error (.missingOperand m.opcode (rest.length + 1)) := by
    rw [hb, hbyte, decode_missingOperand (by omega)]
  rw [fetch_of_missingOperand hd, hend]
  rfl

/-- The step at a listed opcode one of whose operand bytes lies past address 255. -/
theorem step_missingOperand {s : State} {op : Byte} (h : s.startsWith op) (hop : op ∈ specOpcodes)
    (hlen : 256 < s.pc.toNat + specLength op) : step s = s.oobFault (some op) .fetchAddress 256 := by
  obtain ⟨hp, hpc, hbyte⟩ := h
  rw [step_raised hp (fetch_missingOperand hpc hbyte hop hlen), next_raise_outOfBounds]

end Sys2Proof.Machine
end

section
/-! SUPPORT. The rules of LDI (R110) and PRN (R115) as one step of a Running core. -/

namespace Sys2Proof.Machine

/-- An LDI within memory is run with its two operand bytes, the immediate as it is (R73, R110). -/
theorem step_ldi {s : State} (h : s.startsWith 0x82) (hlen : s.pc.toNat + 2 ≤ 255) :
    step s = exec (.ldi (s.byteAt 1) (s.byteAt 2)) s :=
  step_of_operands h hlen rfl

/-- A PRN within memory is run with its operand byte (R115). -/
theorem step_prn {s : State} (h : s.startsWith 0x47) (hlen : s.pc.toNat + 1 ≤ 255) :
    step s = exec (.prn (s.byteAt 1)) s :=
  step_of_operands h hlen rfl

/-- LDI to a register there is writes the immediate into it and moves the pc on. -/
theorem exec_ldi_register {r : Byte} {d : Fin 8} (h : r.toNat = d.val) (imm : Byte) (s : State) :
    exec (.ldi r imm) s = .next ((s.setReg d imm).advance 3) := by
  rw [exec, execLdi, checkReg_ok h]
  rfl

/-- PRN of a register there is emits its value once and moves the pc on. -/
theorem exec_prn_register {r : Byte} {d : Fin 8} (h : r.toNat = d.val) (s : State) :
    exec (.prn r) s = .next ((s.emit (s.getReg d)).advance 2) := by
  rw [exec, execPrn, checkReg_ok h]
  rfl

/-- Settles O14: near the end of memory the fetch raises; otherwise the LDI is run, which checks its register index first
and then writes. -/
theorem ldiRule : Obligations.LdiRule := by
  intro s h
  refine ⟨fun hlen => ?_, fun hlen => ⟨fun hr => ?_, fun d hd => ?_⟩⟩
  · have hthree : specLength 0x82 = 3 := rfl
    exact step_missingOperand h (by decide) (by omega)
  · rw [step_ldi h hlen]
    exact exec_first_registerIndex rfl hr s
  · rw [step_ldi h hlen, exec_ldi_register hd]
    rfl

/-- Settles O15: at the end of memory the fetch raises; otherwise the PRN is run, which checks its register index first
and then emits. -/
theorem prnRule : Obligations.PrnRule := by
  intro s h
  refine ⟨fun hlen => ?_, fun hlen => ⟨fun hr => ?_, fun d hd => ?_⟩⟩
  · have htwo : specLength 0x47 = 2 := rfl
    exact step_missingOperand h (by decide) (by omega)
  · rw [step_prn h hlen]
    exact exec_first_registerIndex rfl hr s
  · rw [step_prn h hlen, exec_prn_register hd]
    rfl

end Sys2Proof.Machine
end

section
/-! SUPPORT. The rules of ADD (R122) and MUL (R126) as one step of a Running core: the clauses the two share, proved once
for any instruction with two register operands. -/

namespace Sys2Proof.Machine

/-- The ALU's sum modulo 256 is the sum of the two words (R121). -/
theorem alu_add (va vb : Byte) : alu .add va vb = .ok (va + vb) :=
  congrArg Except.ok (BitVec.eq_of_toNat_eq (by simp))

/-- The ALU's product modulo 256 is the product of the two words (R121). -/
theorem alu_mul (va vb : Byte) : alu .mul va vb = .ok (va * vb) :=
  congrArg Except.ok (BitVec.eq_of_toNat_eq (by simp))

/-- Once both indices name registers, the ALU's result goes to the first one and the pc moves on (R120). -/
theorem aluApply_registers {op : AluOp} {a b v : Byte} {d e : Fin 8} {s : State} (ha : a.toNat = d.val)
    (hb : b.toNat = e.val) (hv : alu op (s.getReg d) (s.getReg e) = .ok v) :
    aluApply op a b s = .ok ((s.setReg d v).advance 3) := by
  rw [aluApply, checkReg_ok ha, checkReg_ok hb]
  exact congrArg (· >>= fun r => pure ((s.setReg d r).advance 3)) hv

/-- ADD of two registers there are, the same one twice and R7 among them. -/
theorem exec_add_registers {a b : Byte} {d e : Fin 8} (ha : a.toNat = d.val) (hb : b.toNat = e.val) (s : State) :
    exec (.add a b) s = .next ((s.setReg d (s.getReg d + s.getReg e)).advance 3) := by
  rw [exec, execAdd, aluApply_registers ha hb (alu_add _ _), finish_ok]

/-- MUL of two registers there are, the same one twice and R7 among them. -/
theorem exec_mul_registers {a b : Byte} {d e : Fin 8} (ha : a.toNat = d.val) (hb : b.toNat = e.val) (s : State) :
    exec (.mul a b) s = .next ((s.setReg d (s.getReg d * s.getReg e)).advance 3) := by
  rw [exec, execMul, aluApply_registers ha hb (alu_mul _ _), finish_ok]

/-- The clauses of R122 and R126 for an instruction whose two operands are registers: near the end of memory the fetch
raises; otherwise the first index is checked, then the second, and then the first register takes `value` of the two
registers modulo 256. -/
theorem step_twoRegisters {s : State} {i : Instr} {value : Nat → Nat → Nat} (h : s.startsWith i.opcode)
    (hops : i.operands = [s.byteAt 1, s.byteAt 2]) (hregs : i.registerOperands = [s.byteAt 1, s.byteAt 2])
    (hexec : ∀ d e : Fin 8, (s.byteAt 1).toNat = d.val → (s.byteAt 2).toNat = e.val →
      ∃ v : Byte, v.toNat = value (s.getReg d).toNat (s.getReg e).toNat % 256 ∧
        exec i s = .next ((s.setReg d v).advance 3)) :
    (255 < s.pc.toNat + 2 → step s = s.oobFault (some i.opcode) .fetchAddress 256) ∧
    (s.pc.toNat + 2 ≤ 255 →
      (7 < (s.byteAt 1).toNat → step s = s.oobFault (some i.opcode) .registerIndex (s.byteAt 1).toNat) ∧
      (∀ d : Fin 8, (s.byteAt 1).toNat = d.val →
        (7 < (s.byteAt 2).toNat → step s = s.oobFault (some i.opcode) .registerIndex (s.byteAt 2).toNat) ∧
        (∀ e : Fin 8, (s.byteAt 2).toNat = e.val →
          ∃ v : Byte, v.toNat = value (s.getReg d).toNat (s.getReg e).toNat % 256 ∧
            step s = .next ((s.setReg d v).advance 3)))) := by
  have htwo : i.operands.length = 2 := congrArg List.length hops
  have hthree : specLength i.opcode = 1 + i.operands.length := specLength_opcode i
  refine ⟨fun hlen => step_missingOperand h (opcode_mem_specOpcodes i.mnemonic) (by omega), fun hlen => ?_⟩
  have hrun : step s = exec i s := step_of_operands h (by omega) (by rw [htwo, hops]; rfl)
  rw [hrun]
  refine ⟨fun ha => ?_, fun d hd => ⟨fun hb => ?_, fun e he => ?_⟩⟩
  · exact exec_first_registerIndex hregs ha s
  · exact exec_second_registerIndex hregs (by omega) hb s
  · exact hexec d e hd he

/-- Settles O16, from the clauses it shares with MUL: the two words' sum is the sum modulo 256. -/
theorem addRule : Obligations.AddRule := fun s h =>
  step_twoRegisters (i := .add (s.byteAt 1) (s.byteAt 2)) (value := (· + ·)) h rfl rfl
    fun _ _ hd he => ⟨_, BitVec.toNat_add _ _, exec_add_registers hd he s⟩

/-- Settles O17, from the clauses it shares with ADD: the two words' product is the product modulo 256. -/
theorem mulRule : Obligations.MulRule := fun s h =>
  step_twoRegisters (i := .mul (s.byteAt 1) (s.byteAt 2)) (value := (· * ·)) h rfl rfl
    fun _ _ hd he => ⟨_, BitVec.toNat_mul _ _, exec_mul_registers hd he s⟩

end Sys2Proof.Machine
end

section
/-! SUPPORT. Where each instruction leaves the pc when it does not raise (R26): CALL and RET set it (R150, R156), HLT
keeps it (R101), and every other instruction moves it on by its length. -/

namespace Sys2Proof.Machine

/-! ### The pc under the shared operations -/

theorem pushByte_pc {s t : State} {v : Byte} (h : s.pushByte v = .ok t) : t.pc = s.pc := by
  rcases s.pushByte_cases v with ⟨-, hp⟩ | ⟨-, hp⟩ <;> rw [hp] at h <;> cases h
  rfl

theorem popSp_pc {s t : State} (h : s.popSp = .ok t) : t.pc = s.pc := by
  rcases s.popSp_cases with ⟨-, hp⟩ | ⟨-, hp⟩ <;> rw [hp] at h <;> cases h
  rfl

theorem aluApply_pc {op : AluOp} {a b : Byte} {s t : State} (h : aluApply op a b s = .ok t) :
    t.pc = s.pc + BitVec.ofNat 9 3 := by
  obtain ⟨d, -, h⟩ := bind_eq_ok h
  obtain ⟨e, -, h⟩ := bind_eq_ok h
  obtain ⟨v, -, h⟩ := bind_eq_ok h
  cases h
  rfl

/-- An instruction that does not end in a fault ends in the state of its staged writes. -/
theorem finish_not_faulted {i : Instr} {s t : State} {x : Except CoreError State} (h : finish i s x = .next t)
    (hnf : t.phase ≠ .faulted) : x = .ok t := by
  rcases finish_next h with hok | ⟨e, -, rfl⟩
  · exact hok
  · exact absurd rfl hnf

/-! ### The pc after each instruction -/

/-- CALL jumps to what its register holds after the push, the new SP for CALL R7 (R150). -/
theorem exec_call_pc {r : Byte} {s t : State} (h : exec (.call r) s = .next t) (hnf : t.phase ≠ .faulted) :
    ∃ d : Fin 8, r.toNat = d.val ∧ t.pc = (t.getReg d).setWidth 9 := by
  obtain ⟨d, hd, hok⟩ := bind_eq_ok (finish_not_faulted h hnf)
  obtain ⟨a, -, hok⟩ := bind_eq_ok hok
  obtain ⟨u, -, hok⟩ := bind_eq_ok hok
  cases hok
  exact ⟨d, (checkReg_ok_iff r d).mp hd, rfl⟩

/-- RET jumps to the byte at SP (R156). -/
theorem exec_ret_pc {s t : State} (h : exec .ret s = .next t) (hnf : t.phase ≠ .faulted) :
    t.pc = (s.readMem s.sp).setWidth 9 := by
  obtain ⟨u, -, hok⟩ := bind_eq_ok (finish_not_faulted h hnf)
  cases hok
  rfl

/-- An instruction other than CALL, RET and HLT moves the pc on by the length R75 lists for its opcode. -/
theorem exec_sequential_pc {i : Instr} {s t : State} (hcall : i.opcode ≠ 0x50) (hret : i.opcode ≠ 0x11)
    (hhlt : i.opcode ≠ 0x01) (h : exec i s = .next t) (hnf : t.phase ≠ .faulted) :
    t.pc = s.pc + BitVec.ofNat 9 (specLength i.opcode) := by
  cases i with
  | hlt => exact absurd rfl hhlt
  | ret => exact absurd rfl hret
  | call r => exact absurd rfl hcall
  | add a b | mul a b => exact aluApply_pc (finish_not_faulted h hnf)
  | prn r | ldi r imm =>
    obtain ⟨d, -, hok⟩ := bind_eq_ok (finish_not_faulted h hnf)
    cases hok
    rfl
  | push r =>
    obtain ⟨d, -, hok⟩ := bind_eq_ok (finish_not_faulted h hnf)
    obtain ⟨u, hu, hok⟩ := bind_eq_ok hok
    cases hok
    exact congrArg (· + BitVec.ofNat 9 2) (pushByte_pc hu)
  | pop r =>
    obtain ⟨d, -, hok⟩ := bind_eq_ok (finish_not_faulted h hnf)
    obtain ⟨u, hu, hok⟩ := bind_eq_ok hok
    cases hok
    exact congrArg (· + BitVec.ofNat 9 2) (popSp_pc hu :)

/-! ### As one step of a Running core -/

/-- RET is its opcode byte alone, so it is run at every address of memory. -/
theorem step_ret {s : State} (h : s.startsWith 0x11) : step s = exec .ret s :=
  step_of_operands h h.2.1 rfl

/-- A CALL within memory is run with its operand byte. -/
theorem step_call {s : State} (h : s.startsWith 0x50) (hlen : s.pc.toNat + 1 ≤ 255) :
    step s = exec (.call (s.byteAt 1)) s :=
  step_of_operands h hlen rfl

/-- A step at a listed opcode that does not end in a fault had all of the instruction's bytes within memory (R93). -/
theorem pc_add_specLength_le {s t : State} {op : Byte} (hs : s.startsWith op) (hop : op ∈ specOpcodes)
    (h : step s = .next t) (hnf : t.phase ≠ .faulted) : s.pc.toNat + specLength op ≤ 256 := by
  by_contra hlen
  rw [step_missingOperand hs hop (by omega)] at h
  cases h
  exact hnf rfl

/-- A step of a Running core that does not end in a fault runs the instruction of the opcode at the pc. -/
theorem exec_of_step_not_faulted {s t : State} {op : Byte} (hs : s.startsWith op) (h : step s = .next t)
    (hnf : t.phase ≠ .faulted) : ∃ i : Instr, i.opcode = op ∧ exec i s = .next t := by
  obtain ⟨hp, -, hop⟩ := hs
  rcases step_cases h with ⟨hnp, -⟩ | ⟨-, i, hf, hi⟩ | ⟨-, e, -, rfl⟩
  · exact absurd hp hnp
  · obtain ⟨-, -, hbyte⟩ := startsWith_opcode_of_fetch hp hf
    exact ⟨i, hbyte.symm.trans hop, hi⟩
  · exact absurd rfl hnf

/-- A byte becomes a pc without loss (R25). -/
theorem toNat_setWidth_pc (v : Byte) : (v.setWidth 9 : PcWord).toNat = v.toNat :=
  BitVec.toNat_setWidth_of_le (by decide)

/-- Moving the pc on to an address up to 256 does not wrap in 9 bits (R25). -/
theorem toNat_pc_add {p : PcWord} {n : Nat} (h : p.toNat + n ≤ 256) : (p + BitVec.ofNat 9 n).toNat = p.toNat + n := by
  simp only [BitVec.toNat_add, BitVec.toNat_ofNat]
  omega

/-- Settles O39: a clause for each of CALL, RET and HLT from what its own step does, and one for every other instruction,
whose bytes lie within memory, so that the pc does not wrap. -/
theorem controlTransferOnlyByCallAndRet : Obligations.ControlTransferOnlyByCallAndRet := by
  intro s t op hs h hnf
  refine ⟨?call, ?ret, ?hlt, fun hcall hret hhlt => ?sequential⟩
  case call =>
    rintro rfl
    have hlen : s.pc.toNat + 2 ≤ 256 := pc_add_specLength_le hs (by decide) h hnf
    rw [step_call hs (by omega)] at h
    obtain ⟨d, hd, hpc⟩ := exec_call_pc h hnf
    exact ⟨d, hd, by rw [hpc, toNat_setWidth_pc]⟩
  case ret =>
    rintro rfl
    rw [step_ret hs] at h
    rw [exec_ret_pc h hnf, toNat_setWidth_pc, State.readMem]
  case hlt =>
    rintro rfl
    rw [step_hlt hs] at h
    cases h
    rfl
  case sequential =>
    obtain ⟨i, rfl, hi⟩ := exec_of_step_not_faulted hs h hnf
    have hlen := pc_add_specLength_le hs (opcode_mem_specOpcodes i.mnemonic) h hnf
    rw [exec_sequential_pc hcall hret hhlt hi hnf, toNat_pc_add hlen]

end Sys2Proof.Machine
end

section
/-! SUPPORT. How the phase changes: no step leads into Idle from another phase (R28), so what holds of every Idle state
is a matter of the host's acts (R38 to R40, R58). -/

namespace Sys2Proof.Machine

/-! ### The phase under an instruction and a step -/

theorem pushByte_phase {s t : State} {v : Byte} (h : s.pushByte v = .ok t) : t.phase = s.phase := by
  rcases s.pushByte_cases v with ⟨-, hp⟩ | ⟨-, hp⟩ <;> rw [hp] at h <;> cases h
  rfl

theorem popSp_phase {s t : State} (h : s.popSp = .ok t) : t.phase = s.phase := by
  rcases s.popSp_cases with ⟨-, hp⟩ | ⟨-, hp⟩ <;> rw [hp] at h <;> cases h
  rfl

theorem aluApply_phase {op : AluOp} {a b : Byte} {s t : State} (h : aluApply op a b s = .ok t) :
    t.phase = s.phase := by
  obtain ⟨d, -, h⟩ := bind_eq_ok h
  obtain ⟨e, -, h⟩ := bind_eq_ok h
  obtain ⟨v, -, h⟩ := bind_eq_ok h
  cases h
  rfl

/-- No instruction but HLT stages a write of the phase: without a raise the phase stays. -/
theorem exec_phase_of_ne_hlt {i : Instr} {s t : State} (hi : i ≠ .hlt) (h : exec i s = .next t)
    (hnf : t.phase ≠ .faulted) : t.phase = s.phase := by
  cases i with
  | hlt => exact absurd rfl hi
  | add a b | mul a b => exact aluApply_phase (finish_not_faulted h hnf)
  | prn r | ldi r imm =>
    obtain ⟨d, -, hok⟩ := bind_eq_ok (finish_not_faulted h hnf)
    cases hok
    rfl
  | push r =>
    obtain ⟨d, -, hok⟩ := bind_eq_ok (finish_not_faulted h hnf)
    obtain ⟨u, hu, hok⟩ := bind_eq_ok hok
    cases hok
    exact (pushByte_phase hu :)
  | pop r =>
    obtain ⟨d, -, hok⟩ := bind_eq_ok (finish_not_faulted h hnf)
    obtain ⟨u, hu, hok⟩ := bind_eq_ok hok
    cases hok
    exact (popSp_phase hu :)
  | call r =>
    obtain ⟨d, -, hok⟩ := bind_eq_ok (finish_not_faulted h hnf)
    obtain ⟨a, -, hok⟩ := bind_eq_ok hok
    obtain ⟨u, hu, hok⟩ := bind_eq_ok hok
    cases hok
    exact (pushByte_phase hu :)
  | ret =>
    obtain ⟨u, hu, hok⟩ := bind_eq_ok (finish_not_faulted h hnf)
    cases hok
    exact (popSp_phase hu :)

/-- The phases an instruction can end in (R28). -/
theorem exec_phase_cases {i : Instr} {s t : State} (h : exec i s = .next t) :
    t.phase = s.phase ∨ t.phase = .halted ∨ t.phase = .faulted := by
  by_cases hi : i = .hlt
  · subst hi
    cases h
    exact .inr (.inl rfl)
  · by_cases hf : t.phase = .faulted
    · exact .inr (.inr hf)
    · exact .inl (exec_phase_of_ne_hlt hi h hf)

/-- A step that ends in Idle began there and did nothing: no iteration leads into Idle (R28). -/
theorem eq_of_step_idle {s t : State} (h : step s = .next t) (ht : t.phase = .idle) : t = s := by
  rcases step_cases h with ⟨-, hts⟩ | ⟨hp, i, -, hi⟩ | ⟨-, e, -, rfl⟩
  · exact hts
  · have hphase := exec_phase_cases hi
    simp [ht, hp] at hphase
  · cases ht

/-! ### The acts of the host -/

/-- A run of host writes changes memory alone. -/
theorem hostWrites_mem_only (s : State) (a : Nat) (bytes : List Byte) :
    ∃ m, s.hostWrites a bytes = { s with mem := m } := by
  induction bytes generalizing s a with
  | nil => exact ⟨s.mem, rfl⟩
  | cons b rest ih =>
    obtain ⟨m, hm⟩ := ih (s.hostWrite (BitVec.ofNat 8 a) b) (a + 1)
    exact ⟨m, by rw [State.hostWrites, hm, hostWrite_mem_only]⟩

/-- A load changes memory alone, a refused one nothing (R58). -/
theorem load_mem_only (s : State) (image : List Byte) : ∃ m, s.load image = { s with mem := m } := by
  unfold State.load
  split
  · exact ⟨s.mem, rfl⟩
  · exact hostWrites_mem_only s 0 image

/-- Everything an act of the host can do: change memory alone, start an Idle core, or reset. -/
theorem host_cases (s : State) (a : HostAction) :
    (∃ m, s.host a = { s with mem := m }) ∨
    (s.phase = .idle ∧ s.host a = (s.setPhase .running).setSp Config.spInit) ∨ s.host a = State.reset := by
  cases a with
  | write a v => exact .inl ⟨_, hostWrite_mem_only s a v⟩
  | load image => exact .inl (load_mem_only s image)
  | start =>
    by_cases h : s.phase = .idle
    · exact .inr (.inl ⟨h, start_idle h⟩)
    · exact .inl ⟨s.mem, start_other h⟩
  | reset => exact .inr (.inr rfl)

/-- As long as the core is Idle its registers are as reset made them (R38, R41). -/
theorem Reachable.regs_of_idle {s : State} (h : Reachable s) (hidle : s.phase = .idle) : s.regs = State.reset.regs := by
  induction h with
  | reset => rfl
  | host s a _ ih =>
    rcases host_cases s a with ⟨m, hm⟩ | ⟨-, hstart⟩ | hreset
    · rw [hm] at hidle ⊢
      exact ih hidle
    · rw [hstart] at hidle
      cases hidle
    · rw [hreset]
  | step s t _ hs ih =>
    obtain rfl := eq_of_step_idle hs hidle
    exact ih hidle

end Sys2Proof.Machine
end

section
/-! SUPPORT. The stack pointer before start (R39, R201): reset makes it 0, the host's writes and loads neither read nor
change it, and start sets it. -/

namespace Sys2Proof.Machine

/-- Reading SP after a write of it. -/
@[simp] theorem sp_setSp (s : State) (v : Byte) : (s.setSp v).sp = v :=
  State.getReg_setReg_self s Config.spIndex v

theorem reset_sp : State.reset.sp = 0 := rfl

/-- Start from Idle sets SP to 0xF4 (R39). -/
theorem start_sp {s : State} (h : s.phase = .idle) : s.start.sp = 0xF4 := by
  rw [start_idle h, sp_setSp, Config.spInit]

/-- Until start SP keeps the value reset gave it. -/
theorem Reachable.sp_of_idle {s : State} (h : Reachable s) (hidle : s.phase = .idle) : s.sp = 0 := by
  rw [State.sp, State.getReg, h.regs_of_idle hidle]
  exact reset_sp

/-- A host write neither reads nor changes SP, in any phase. -/
theorem setSp_hostWrite (s : State) (v a b : Byte) : (s.setSp v).hostWrite a b = (s.hostWrite a b).setSp v := by
  by_cases h : s.phase = .idle
  · rw [hostWrite_idle a b h]
    exact hostWrite_idle (s := s.setSp v) a b h
  · rw [hostWrite_other a b h]
    exact hostWrite_other (s := s.setSp v) a b h

theorem setSp_hostWrites (s : State) (v : Byte) (a : Nat) (bytes : List Byte) :
    (s.setSp v).hostWrites a bytes = (s.hostWrites a bytes).setSp v := by
  induction bytes generalizing s a with
  | nil => rfl
  | cons b rest ih => rw [State.hostWrites, setSp_hostWrite, ih, State.hostWrites]

/-- A load neither reads nor changes SP, in any phase. -/
theorem setSp_load (s : State) (v : Byte) (image : List Byte) : (s.setSp v).load image = (s.load image).setSp v := by
  unfold State.load
  split
  · rfl
  · exact setSp_hostWrites s v 0 image

/-- Settles O51: Idle keeps the registers of reset along every run, start sets SP, and a step while Idle, a host write and
a load each commute with setting it. -/
theorem stackPointerIsSetAtStart : Obligations.StackPointerIsSetAtStart := by
  refine ⟨reset_sp, fun s hs hidle => ⟨hs.sp_of_idle hidle, start_sp hidle⟩, fun s v a b image hidle => ?_⟩
  have hnr : (s.setSp v).phase ≠ .running := by simp [hidle]
  exact ⟨step_outside hnr, setSp_hostWrite s v a b, setSp_load s v image⟩

end Sys2Proof.Machine
end

section
/-! SUPPORT. What an instruction can do, said once: the state it leaves when none of its checks fails (`Effect`), and the
check that fails otherwise (`Failure`), in the order of R173. -/

namespace Sys2Proof.Machine

/-! ### Sequences of checks and staged writes -/

/-- After a check that passes the sequence goes on with its result. -/
@[simp] theorem ok_bind {α β : Type} (a : α) (g : α → Except CoreError β) : (Except.ok a >>= g) = g a := rfl

/-- A check that fails ends the sequence. -/
@[simp] theorem error_bind {α β : Type} (e : CoreError) (g : α → Except CoreError β) :
    (Except.error e >>= g) = .error e := rfl

/-! ### The staged writes of the stack instructions -/

/-- `s` after `v` is stored below SP and SP falls by 1, as PUSH and CALL do it (R135, R150). -/
def State.pushed (s : State) (v : Byte) : State := (s.setSp (s.sp - 1)).writeMem (s.sp - 1) v

/-- `s` after POP's register took the byte at SP, before SP is checked and incremented (R140). -/
def State.popped (s : State) (d : Fin 8) : State := s.setReg d (s.readMem s.sp)

theorem pushByte_ok {s : State} (h : s.sp ≠ 0) (v : Byte) : s.pushByte v = .ok (s.pushed v) := by
  rcases s.pushByte_cases v with ⟨-, hp⟩ | ⟨h0, -⟩
  · exact hp
  · exact absurd h0 h

theorem pushByte_error {s : State} (h : s.sp = 0) (v : Byte) :
    s.pushByte v = .error (.outOfBounds .stackPointer (-1)) := by
  rcases s.pushByte_cases v with ⟨h0, -⟩ | ⟨-, hp⟩
  · exact absurd h h0
  · exact hp

theorem popSp_ok {s : State} (h : s.sp ≠ 255) : s.popSp = .ok (s.setSp (s.sp + 1)) := if_neg h

theorem popSp_error {s : State} (h : s.sp = 255) : s.popSp = .error (.outOfBounds .stackPointer 256) := if_pos h

theorem returnAddress_ok {s : State} (h : s.pc.toNat + 2 ≤ 255) :
    s.returnAddress = .ok (BitVec.ofNat 8 (s.pc.toNat + 2)) := if_neg (by omega)

theorem returnAddress_error {s : State} (h : 255 < s.pc.toNat + 2) :
    s.returnAddress = .error (.outOfBounds .returnAddress (s.pc.toNat + 2)) := if_pos h

theorem setReg_readMem_sp (s : State) (d : Fin 8) : s.setReg d (s.readMem s.sp) = s.popped d := rfl

/-- After POP wrote its register, SP is the popped byte for R7 and as before for every other register (R140). -/
theorem sp_popped (s : State) (d : Fin 8) : (s.popped d).sp = if d = 7 then s.readMem s.sp else s.sp := by
  simp only [State.sp, State.popped, State.getReg_setReg, Config.spIndex, eq_comm]

/-- A register read after a write of SP. -/
theorem getReg_setSp (s : State) (v : Byte) (j : Fin 8) : (s.setSp v).getReg j = if j = 7 then v else s.getReg j :=
  State.getReg_setReg s Config.spIndex j v

/-- A push changes SP alone among the registers. -/
theorem getReg_pushed (s : State) (v : Byte) (j : Fin 8) :
    (s.pushed v).getReg j = if j = 7 then s.sp - 1 else s.getReg j :=
  getReg_setSp s (s.sp - 1) j

/-- The registers after a POP that does not raise. -/
theorem getReg_pop (s : State) (d j : Fin 8) (v : Byte) :
    (((s.popped d).setSp v).advance 2).getReg j =
      if j = 7 then v else if j = d then s.readMem s.sp else s.getReg j := by
  rw [State.getReg_advance, getReg_setSp, State.popped, State.getReg_setReg]

/-! ### Effects and failures -/

/-- The state instruction `i` leaves at `s`, under the conditions that no check of it fails: R101, R110, R115, R122, R126,
R135, R140, R150, R156. -/
inductive Effect (s : State) : Instr → State → Prop where
  | hlt : Effect s .hlt (s.setPhase .halted)
  | ret (hsp : s.sp ≠ 255) : Effect s .ret ((s.setSp (s.sp + 1)).setPc ((s.readMem s.sp).setWidth 9))
  | push {r : Byte} {d : Fin 8} (hr : r.toNat = d.val) (hsp : s.sp ≠ 0) :
      Effect s (.push r) ((s.pushed (s.getReg d)).advance 2)
  | pop {r : Byte} {d : Fin 8} (hr : r.toNat = d.val) (hsp : (s.popped d).sp ≠ 255) :
      Effect s (.pop r) (((s.popped d).setSp ((s.popped d).sp + 1)).advance 2)
  | prn {r : Byte} {d : Fin 8} (hr : r.toNat = d.val) : Effect s (.prn r) ((s.emit (s.getReg d)).advance 2)
  | call {r : Byte} {d : Fin 8} (hr : r.toNat = d.val) (hpc : s.pc.toNat + 2 ≤ 255) (hsp : s.sp ≠ 0) :
      Effect s (.call r) ((s.pushed (BitVec.ofNat 8 (s.pc.toNat + 2))).setPc
        (((s.pushed (BitVec.ofNat 8 (s.pc.toNat + 2))).getReg d).setWidth 9))
  | ldi {r : Byte} {d : Fin 8} (hr : r.toNat = d.val) (imm : Byte) :
      Effect s (.ldi r imm) ((s.setReg d imm).advance 3)
  | add {a b : Byte} {d e : Fin 8} (ha : a.toNat = d.val) (hb : b.toNat = e.val) :
      Effect s (.add a b) ((s.setReg d (s.getReg d + s.getReg e)).advance 3)
  | mul {a b : Byte} {d e : Fin 8} (ha : a.toNat = d.val) (hb : b.toNat = e.val) :
      Effect s (.mul a b) ((s.setReg d (s.getReg d * s.getReg e)).advance 3)

/-- What instruction `i` raises at `s`, each check under the conditions that the ones before it pass: the register
operands in order, CALL's return address, the stack pointer (R173, items 4 to 6). -/
inductive Failure (s : State) : Instr → CoreError → Prop where
  | firstIndex {i : Instr} {r : Byte} {rest : List Byte} (hi : i.registerOperands = r :: rest) (hr : 7 < r.toNat) :
      Failure s i (.outOfBounds .registerIndex r.toNat)
  | secondIndex {i : Instr} {a r : Byte} (hi : i.registerOperands = [a, r]) (ha : a.toNat ≤ 7) (hr : 7 < r.toNat) :
      Failure s i (.outOfBounds .registerIndex r.toNat)
  | returnAddress {r : Byte} {d : Fin 8} (hr : r.toNat = d.val) (hpc : 255 < s.pc.toNat + 2) :
      Failure s (.call r) (.outOfBounds .returnAddress (s.pc.toNat + 2))
  | callBelow {r : Byte} {d : Fin 8} (hr : r.toNat = d.val) (hpc : s.pc.toNat + 2 ≤ 255) (hsp : s.sp = 0) :
      Failure s (.call r) (.outOfBounds .stackPointer (-1))
  | pushBelow {r : Byte} {d : Fin 8} (hr : r.toNat = d.val) (hsp : s.sp = 0) :
      Failure s (.push r) (.outOfBounds .stackPointer (-1))
  | popAbove {r : Byte} {d : Fin 8} (hr : r.toNat = d.val) (hsp : (s.popped d).sp = 255) :
      Failure s (.pop r) (.outOfBounds .stackPointer 256)
  | retAbove (hsp : s.sp = 255) : Failure s .ret (.outOfBounds .stackPointer 256)

/-- An instruction none of whose checks fails answers its effect. -/
theorem exec_of_effect {s t : State} {i : Instr} (h : Effect s i t) : exec i s = .next t := by
  cases h with
  | hlt => rfl
  | ret hsp => simp [exec, execRet, popSp_ok hsp]
  | push hr hsp => simp [exec, execPush, checkReg_ok hr, pushByte_ok hsp]
  | pop hr hsp => simp [exec, execPop, checkReg_ok hr, popSp_ok hsp, setReg_readMem_sp]
  | prn hr => exact exec_prn_register hr s
  | call hr hpc hsp => simp [exec, execCall, checkReg_ok hr, returnAddress_ok hpc, pushByte_ok hsp]
  | ldi hr imm => exact exec_ldi_register hr imm s
  | add ha hb => exact exec_add_registers ha hb s
  | mul ha hb => exact exec_mul_registers ha hb s

/-- An instruction one of whose checks fails answers the fault entry. -/
theorem exec_of_failure {s : State} {i : Instr} {e : CoreError} (h : Failure s i e) :
    exec i s = .next (s.raise (some i.opcode) e) := by
  cases h with
  | firstIndex hi hr => exact exec_first_registerIndex hi hr s
  | secondIndex hi ha hr => exact exec_second_registerIndex hi ha hr s
  | returnAddress hr hpc => simp [exec, execCall, checkReg_ok hr, returnAddress_error hpc]
  | callBelow hr hpc hsp => simp [exec, execCall, checkReg_ok hr, returnAddress_ok hpc, pushByte_error hsp]
  | pushBelow hr hsp => simp [exec, execPush, checkReg_ok hr, pushByte_error hsp]
  | popAbove hr hsp => simp [exec, execPop, checkReg_ok hr, popSp_error hsp, setReg_readMem_sp]
  | retAbove hsp => simp [exec, execRet, popSp_error hsp]

/-- An instruction with register operands fails at the first one, or that one names a register. -/
theorem firstIndex_or_register (s : State) {i : Instr} {r : Byte} {rest : List Byte}
    (hi : i.registerOperands = r :: rest) : (∃ e, Failure s i e) ∨ ∃ d : Fin 8, r.toNat = d.val := by
  rcases checkReg_cases r with ⟨d, hd, -⟩ | ⟨hr, -⟩
  · exact .inr ⟨d, hd⟩
  · exact .inl ⟨_, .firstIndex hi hr⟩

/-- An instruction with two register operands fails at one of them, or both name registers. -/
theorem index_or_registers (s : State) {i : Instr} {a b : Byte} (hi : i.registerOperands = [a, b]) :
    (∃ e, Failure s i e) ∨ ∃ d e : Fin 8, a.toNat = d.val ∧ b.toNat = e.val := by
  rcases firstIndex_or_register s hi with hfail | ⟨d, hd⟩
  · exact .inl hfail
  rcases checkReg_cases b with ⟨e, he, -⟩ | ⟨hr, -⟩
  · exact .inr ⟨d, e, hd, he⟩
  · exact .inl ⟨_, .secondIndex hi (by omega) hr⟩

/-- No instruction is without an effect or a failure, at any state (R98). -/
theorem failure_or_effect (i : Instr) (s : State) : (∃ e, Failure s i e) ∨ ∃ t, Effect s i t := by
  cases i with
  | hlt => exact .inr ⟨_, .hlt⟩
  | ret =>
    by_cases hsp : s.sp = 255
    · exact .inl ⟨_, .retAbove hsp⟩
    · exact .inr ⟨_, .ret hsp⟩
  | prn r => exact (firstIndex_or_register s rfl).imp_right fun ⟨_, hd⟩ => ⟨_, .prn hd⟩
  | ldi r imm => exact (firstIndex_or_register s rfl).imp_right fun ⟨_, hd⟩ => ⟨_, .ldi hd imm⟩
  | add a b => exact (index_or_registers s rfl).imp_right fun ⟨_, _, hd, he⟩ => ⟨_, .add hd he⟩
  | mul a b => exact (index_or_registers s rfl).imp_right fun ⟨_, _, hd, he⟩ => ⟨_, .mul hd he⟩
  | push r =>
    rcases firstIndex_or_register s (i := .push r) rfl with hfail | ⟨d, hd⟩
    · exact .inl hfail
    by_cases hsp : s.sp = 0
    · exact .inl ⟨_, .pushBelow hd hsp⟩
    · exact .inr ⟨_, .push hd hsp⟩
  | pop r =>
    rcases firstIndex_or_register s (i := .pop r) rfl with hfail | ⟨d, hd⟩
    · exact .inl hfail
    by_cases hsp : (s.popped d).sp = 255
    · exact .inl ⟨_, .popAbove hd hsp⟩
    · exact .inr ⟨_, .pop hd hsp⟩
  | call r =>
    rcases firstIndex_or_register s (i := .call r) rfl with hfail | ⟨d, hd⟩
    · exact .inl hfail
    by_cases hpc : 255 < s.pc.toNat + 2
    · exact .inl ⟨_, .returnAddress hd hpc⟩
    by_cases hsp : s.sp = 0
    · exact .inl ⟨_, .callBelow hd (by omega) hsp⟩
    · exact .inr ⟨_, .call hd (by omega) hsp⟩

/-- Everything an instruction can do: the fault entry, or its effect. -/
theorem effect_of_exec {i : Instr} {s t : State} (h : exec i s = .next t) : Raised s t ∨ Effect s i t := by
  rcases failure_or_effect i s with ⟨e, hfail⟩ | ⟨u, heff⟩
  · obtain rfl := Host.Outcome.next.inj (h.symm.trans (exec_of_failure hfail))
    exact .inl ⟨_, rfl, rfl⟩
  · obtain rfl : t = u := Host.Outcome.next.inj (h.symm.trans (exec_of_effect heff))
    exact .inr heff

end Sys2Proof.Machine
end

section
/-! SUPPORT. What a step of a Running core can do: the fault entry with the record `firstError` gives, or the effect of the
instruction memory holds at the pc (R90 to R97, R173). -/

namespace Sys2Proof.Machine

/-! ### The instruction at the pc -/

/-- Memory holds the bytes of `i` at the pc and the addresses after it, none past address 255 (R71). -/
structure State.Holds (s : State) (i : Instr) : Prop where
  length : s.pc.toNat + specLength i.opcode ≤ 256
  opcode : s.byteAt 0 = i.opcode
  operands : i.operands = (List.range i.operands.length).map fun k => s.byteAt (k + 1)

theorem specLength_pos (op : Byte) : 0 < specLength op := by
  unfold specLength
  split_ifs <;> decide

theorem State.Holds.pc_le {s : State} {i : Instr} (h : s.Holds i) : s.pc.toNat ≤ 255 := by
  have hlen := h.length
  have hpos := specLength_pos i.opcode
  omega

theorem State.Holds.startsWith {s : State} {i : Instr} (h : s.Holds i) (hp : s.phase = .running) :
    s.startsWith i.opcode := ⟨hp, h.pc_le, h.opcode⟩

theorem State.Holds.step_eq_exec {s : State} {i : Instr} (h : s.Holds i) (hp : s.phase = .running) :
    step s = exec i s := by
  have hlen := h.length
  rw [specLength_opcode] at hlen
  exact step_of_operands (h.startsWith hp) (by omega) h.operands

/-- The byte after the opcode is the first operand. -/
theorem State.Holds.byteAt_one {s : State} {i : Instr} (h : s.Holds i) {r : Byte} {rest : List Byte}
    (hops : i.operands = r :: rest) : s.byteAt 1 = r := by
  have heq := h.operands
  rw [hops, List.length_cons, List.range_succ_eq_map, List.map_cons] at heq
  exact (List.cons.inj heq).1.symm

/-- Whatever bytes follow an opcode of the map, they are the operands of one of its instructions. -/
theorem exists_instr_of_mnemonic (m : Mnemonic) (byte : Nat → Byte) :
    ∃ i : Instr, i.mnemonic = m ∧ i.operands = (List.range i.operands.length).map byte := by
  cases m with
  | hlt => exact ⟨.hlt, rfl, rfl⟩
  | ret => exact ⟨.ret, rfl, rfl⟩
  | push => exact ⟨.push (byte 0), rfl, rfl⟩
  | pop => exact ⟨.pop (byte 0), rfl, rfl⟩
  | prn => exact ⟨.prn (byte 0), rfl, rfl⟩
  | call => exact ⟨.call (byte 0), rfl, rfl⟩
  | ldi => exact ⟨.ldi (byte 0) (byte 1), rfl, rfl⟩
  | add => exact ⟨.add (byte 0) (byte 1), rfl, rfl⟩
  | mul => exact ⟨.mul (byte 0) (byte 1), rfl, rfl⟩

/-- A listed opcode whose instruction ends within memory is an instruction memory holds at the pc. -/
theorem exists_holds {s : State} (hop : s.byteAt 0 ∈ specOpcodes)
    (hlen : s.pc.toNat + specLength (s.byteAt 0) ≤ 256) : ∃ i, s.Holds i := by
  obtain ⟨m, hm⟩ := exists_opcode_of_mem_specOpcodes hop
  obtain ⟨i, rfl, hops⟩ := exists_instr_of_mnemonic m fun k => s.byteAt (k + 1)
  have hbyte : s.byteAt 0 = i.opcode := hm.symm
  exact ⟨i, hbyte ▸ hlen, hbyte, hops⟩

/-! ### The checks on the instruction at the pc -/

/-- The operand bytes R75 lists as register indices are the instruction's register operands. -/
theorem State.Holds.registerOperands {s : State} {i : Instr} (h : s.Holds i) :
    (specRegisterBytes i.opcode).map s.byteAt = i.registerOperands := by
  cases i with
  | hlt | ret => rfl
  | push | pop | prn | call | add | mul => exact h.operands.symm
  | ldi r imm => exact congrArg (fun b => [b]) (h.byteAt_one rfl)

/-- No register operand of an instruction that has its effect is above 7. -/
theorem Effect.registerOperands_le {s t : State} {i : Instr} (h : Effect s i t) :
    ∀ r ∈ i.registerOperands, r.toNat ≤ 7 := by
  cases h with
  | hlt | ret => simp [Instr.registerOperands]
  | push hr | pop hr | prn hr | call hr | ldi hr =>
    simp only [Instr.registerOperands, List.mem_singleton, forall_eq]
    omega
  | add ha hb | mul ha hb =>
    simp only [Instr.registerOperands, List.mem_cons, List.not_mem_nil, or_false, forall_eq_or_imp, forall_eq]
    omega

/-- Items 5 and 6 of R173 for the opcode `op`: what is checked once the register operands have passed. -/
def State.lateError (s : State) (op : Byte) : Option FaultRecord :=
  if op = 0x50 ∧ 255 < s.pc.toNat + 2 then some (s.oobRecord (some op) .returnAddress (s.pc.toNat + 2))
  else if (op = 0x45 ∨ op = 0x50) ∧ s.sp = 0 then some (s.oobRecord (some op) .stackPointer (-1))
  else if (op = 0x11 ∨ op = 0x46 ∧ s.byteAt 1 ≠ 7) ∧ s.sp = 255 then some (s.oobRecord (some op) .stackPointer 256)
  else if op = 0x46 ∧ s.byteAt 1 = 7 ∧ s.mem.read s.sp.toNat = 255 then
    some (s.oobRecord (some op) .stackPointer 256)
  else none

theorem lateError_call (s : State) : s.lateError 0x50 =
    if 255 < s.pc.toNat + 2 then some (s.oobRecord (some 0x50) .returnAddress (s.pc.toNat + 2))
    else if s.sp = 0 then some (s.oobRecord (some 0x50) .stackPointer (-1)) else none := by
  simp [State.lateError]

theorem lateError_push (s : State) :
    s.lateError 0x45 = if s.sp = 0 then some (s.oobRecord (some 0x45) .stackPointer (-1)) else none := by
  simp [State.lateError]

theorem lateError_ret (s : State) :
    s.lateError 0x11 = if s.sp = 255 then some (s.oobRecord (some 0x11) .stackPointer 256) else none := by
  simp [State.lateError]

/-- POP's two checks are one check of SP as it is after POP wrote its register (R140). -/
theorem lateError_pop {s : State} {d : Fin 8} (hd : (s.byteAt 1).toNat = d.val) : s.lateError 0x46 =
    if (s.popped d).sp = 255 then some (s.oobRecord (some 0x46) .stackPointer 256) else none := by
  have h7 : s.byteAt 1 = 7 ↔ d = 7 := by
    rw [← BitVec.toNat_inj, hd, Fin.ext_iff]
    rfl
  have hne : (0x46 : Byte) ≠ 0x50 ∧ (0x46 : Byte) ≠ 0x45 ∧ (0x46 : Byte) ≠ 0x11 := by decide
  by_cases h : d = 7 <;> simp only [State.lateError, sp_popped, State.readMem, h7, h, hne, false_and, true_and,
    not_true, not_false_eq_true, ne_eq, or_self, false_or, if_true, if_false]

/-- No other opcode has a check after its register operands. -/
theorem lateError_other (s : State) {op : Byte} (h : op ∉ [(0x50 : Byte), 0x45, 0x46, 0x11]) :
    s.lateError op = none := by
  simp only [List.mem_cons, List.not_mem_nil, or_false, not_or] at h
  obtain ⟨hcall, hpush, hpop, hret⟩ := h
  simp only [State.lateError, hcall, hpush, hpop, hret, false_and, or_self, if_false]

section
variable {s : State} {i : Instr} (h : s.Holds i)
include h

/-- Where memory holds an instruction, its first register operand above 7 is the first error (R173, item 4). -/
theorem firstError_registerIndex {k : Nat}
    (hk : (specRegisterBytes i.opcode).find? (fun k => decide (7 < (s.byteAt k).toNat)) = some k) :
    firstError s = some (s.oobRecord (some i.opcode) .registerIndex (s.byteAt k).toNat) := by
  have hop : i.opcode ∈ specOpcodes := opcode_mem_specOpcodes i.mnemonic
  simp [firstError, h.opcode, Nat.not_lt.mpr h.pc_le, hop, Nat.not_lt.mpr h.length, hk]

/-- Where memory holds an instruction whose register operands pass, what is left to check is items 5 and 6 of R173. -/
theorem firstError_eq_lateError (hregs : ∀ r ∈ i.registerOperands, r.toNat ≤ 7) :
    firstError s = s.lateError i.opcode := by
  have hop : i.opcode ∈ specOpcodes := opcode_mem_specOpcodes i.mnemonic
  have hfind : (specRegisterBytes i.opcode).find? (fun k => decide (7 < (s.byteAt k).toNat)) = none := by
    simp only [List.find?_eq_none, decide_eq_true_eq, Nat.not_lt]
    exact fun k hk => hregs _ (h.registerOperands ▸ List.mem_map_of_mem hk)
  simp [firstError, State.lateError, h.opcode, Nat.not_lt.mpr h.pc_le, hop, Nat.not_lt.mpr h.length, hfind]

end

/-- An instruction that has its effect fails no check of R173. -/
theorem firstError_of_effect {s t : State} {i : Instr} (h : s.Holds i) (heff : Effect s i t) :
    firstError s = none := by
  rw [firstError_eq_lateError h heff.registerOperands_le]
  cases heff with
  | hlt | prn | ldi | add | mul => exact lateError_other s (by simp [Instr.opcode, Instr.mnemonic, Mnemonic.opcode])
  | ret hsp => exact (lateError_ret s).trans (if_neg hsp)
  | push hr hsp => exact (lateError_push s).trans (if_neg hsp)
  | pop hr hsp => exact (lateError_pop (h.byteAt_one rfl ▸ hr)).trans (if_neg hsp)
  | call hr hpc hsp => exact (lateError_call s).trans ((if_neg (by omega)).trans (if_neg hsp))

/-- A register operand that passes alone leaves no other to check. -/
theorem singleton_le {r : Byte} {d : Fin 8} (hr : r.toNat = d.val) : ∀ b ∈ [r], b.toNat ≤ 7 := by
  simp only [List.mem_singleton, forall_eq]
  omega

/-- What an instruction raises is what `firstError` records. -/
theorem firstError_of_failure {s : State} {i : Instr} {e : CoreError} (h : s.Holds i) (hf : Failure s i e) :
    ∃ r, firstError s = some r ∧ s.raise (some i.opcode) e = s.withFault r := by
  refine ⟨_, ?_, rfl⟩
  cases hf with
  | firstIndex hi hr =>
    obtain ⟨k, ks, hk, rfl, -⟩ := List.map_eq_cons_iff.mp (h.registerOperands.trans hi)
    exact firstError_registerIndex h (by simp [hk, hr])
  | secondIndex hi ha hr =>
    obtain ⟨k, ks, hk, rfl, hks⟩ := List.map_eq_cons_iff.mp (h.registerOperands.trans hi)
    obtain ⟨l, ls, rfl, rfl, -⟩ := List.map_eq_cons_iff.mp hks
    exact firstError_registerIndex h (by simp [hk, hr, Nat.not_lt.mpr ha])
  | returnAddress hr hpc =>
    exact (firstError_eq_lateError h (singleton_le hr)).trans ((lateError_call s).trans (if_pos hpc))
  | callBelow hr hpc hsp =>
    exact (firstError_eq_lateError h (singleton_le hr)).trans
      ((lateError_call s).trans ((if_neg (by omega)).trans (if_pos hsp)))
  | pushBelow hr hsp =>
    exact (firstError_eq_lateError h (singleton_le hr)).trans ((lateError_push s).trans (if_pos hsp))
  | popAbove hr hsp =>
    exact (firstError_eq_lateError h (singleton_le hr)).trans
      ((lateError_pop (h.byteAt_one rfl ▸ hr)).trans (if_pos hsp))
  | retAbove hsp =>
    exact (firstError_eq_lateError h (List.forall_mem_nil _)).trans ((lateError_ret s).trans (if_pos hsp))

/-! ### The step -/

/-- An opcode fetch past address 255 raises with the pc as value (R92; above 256 log entry 8). -/
theorem step_opcodeFetch {s : State} (hp : s.phase = .running) (hpc : 255 < s.pc.toNat) :
    step s = s.oobFault none .fetchAddress s.pc.toNat := by
  have hb : s.fetchBytes = [] := by
    rcases fetchBytes_cases s with ⟨-, hb⟩ | ⟨h, -⟩ | ⟨h, -⟩ | ⟨h, -⟩
    · exact hb
    all_goals omega
  have hf : s.fetch = .error ⟨none, .outOfBounds .fetchAddress s.pc.toNat⟩ := by
    rw [State.fetch, hb]
    rfl
  rw [step_raised hp hf, next_raise_outOfBounds]

/-- A step of a Running core: the fault entry with the record of the first failing check, or the effect of the instruction
memory holds at the pc. -/
theorem step_running_cases {s : State} (hp : s.phase = .running) :
    (∃ r, firstError s = some r ∧ step s = .next (s.withFault r)) ∨
    (firstError s = none ∧ ∃ i t, s.Holds i ∧ Effect s i t ∧ step s = .next t) := by
  by_cases hpc : 255 < s.pc.toNat
  · exact .inl ⟨_, if_pos hpc, step_opcodeFetch hp hpc⟩
  by_cases hop : s.byteAt 0 ∈ specOpcodes
  swap
  · exact .inl ⟨_, (if_neg hpc).trans (if_pos hop), illegalOpcodeFaults s hp (by omega) hop⟩
  by_cases hlen : 256 < s.pc.toNat + specLength (s.byteAt 0)
  · exact .inl ⟨_, (if_neg hpc).trans ((if_neg (not_not.mpr hop)).trans (if_pos hlen)),
      step_missingOperand ⟨hp, by omega, rfl⟩ hop hlen⟩
  obtain ⟨i, hi⟩ := exists_holds hop (by omega)
  rw [hi.step_eq_exec hp]
  rcases failure_or_effect i s with ⟨e, hfail⟩ | ⟨t, heff⟩
  · obtain ⟨r, hr, hraise⟩ := firstError_of_failure hi hfail
    exact .inl ⟨r, hr, hraise ▸ exec_of_failure hfail⟩
  · exact .inr ⟨firstError_of_effect hi heff, i, t, hi, heff, exec_of_effect heff⟩

/-- Everything a step can do. -/
theorem step_next_cases {s t : State} (h : step s = .next t) :
    (s.phase ≠ .running ∧ t = s) ∨
    (s.phase = .running ∧ ∃ r, firstError s = some r ∧ t = s.withFault r) ∨
    (s.phase = .running ∧ firstError s = none ∧ ∃ i, s.Holds i ∧ Effect s i t) := by
  by_cases hp : s.phase = .running
  · rcases step_running_cases hp with ⟨r, hr, hs⟩ | ⟨hnone, i, u, hi, heff, hs⟩ <;>
      obtain rfl := Host.Outcome.next.inj (h.symm.trans hs)
    · exact .inr (.inl ⟨hp, r, hr, rfl⟩)
    · exact .inr (.inr ⟨hp, hnone, i, hi, heff⟩)
  · exact .inl ⟨hp, Host.Outcome.next.inj (h.symm.trans (step_outside hp))⟩

/-- A step of a Running core that does not end in a fault has the effect of the instruction at the pc. -/
theorem effect_of_step {s t : State} (hp : s.phase = .running) (h : step s = .next t) (hnf : t.phase ≠ .faulted) :
    ∃ i, s.Holds i ∧ Effect s i t := by
  rcases step_next_cases h with ⟨hnp, -⟩ | ⟨-, r, -, rfl⟩ | ⟨-, -, heff⟩
  · exact absurd hp hnp
  · exact absurd rfl hnf
  · exact heff

/-! ### Phase and fault record -/

/-- No effect changes the fault record. -/
theorem Effect.fault {s t : State} {i : Instr} (h : Effect s i t) : t.fault = s.fault := by
  cases h <;> rfl

/-- No effect but HLT's changes the phase. -/
theorem Effect.phase {s t : State} {i : Instr} (h : Effect s i t) :
    (i = .hlt ∧ t.phase = .halted) ∨ (i ≠ .hlt ∧ t.phase = s.phase) := by
  cases h with
  | hlt => exact .inl ⟨rfl, rfl⟩
  | ret | push | pop | prn | call | ldi | add | mul => exact .inr ⟨nofun, rfl⟩

/-- The effect of an instruction that runs leaves the core Running or Halted. -/
theorem Effect.phase_of_running {s t : State} {i : Instr} (h : Effect s i t) (hp : s.phase = .running) :
    t.phase = .running ∨ t.phase = .halted := by
  rcases h.phase with ⟨-, ht⟩ | ⟨-, ht⟩
  · exact .inr ht
  · exact .inl (ht.trans hp)

theorem Effect.phase_ne_faulted {s t : State} {i : Instr} (h : Effect s i t) (hp : s.phase = .running) :
    t.phase ≠ .faulted := by
  rcases h.phase_of_running hp with ht | ht <;> rw [ht] <;> decide

/-- Settles O13: a first error is what the step records, and without one the step has an instruction's effect. -/
theorem firstFailingCheckIsReported : Obligations.FirstFailingCheckIsReported := by
  intro s hp
  rcases step_running_cases hp with ⟨r, hr, hs⟩ | ⟨hnone, i, t, -, heff, hs⟩
  · refine ⟨fun q hq => ?_, fun hnone => ?_⟩
    · obtain rfl : r = q := Option.some.inj (hr.symm.trans hq)
      exact hs
    · cases hr.symm.trans hnone
  · refine ⟨fun q hq => ?_, fun _ => ⟨t, hs, heff.phase_ne_faulted hp, heff.fault⟩⟩
    cases hnone.symm.trans hq

/-- Settles O12: the fault entry ends in Faulted, and an effect in Running or Halted. -/
theorem stepIsTotal : Obligations.StepIsTotal := by
  intro s hp
  rcases step_running_cases hp with ⟨r, -, hs⟩ | ⟨-, i, t, -, heff, hs⟩
  · exact ⟨_, hs, .inr (.inr rfl)⟩
  · exact ⟨t, hs, (heff.phase_of_running hp).imp_right .inl⟩

end Sys2Proof.Machine
end

section
/-! SUPPORT. The statements on decoding and fetching that the model's laws of the decoder and the fetch settle. -/

namespace Sys2Proof.Machine

/-- Settles O3, the decoder's round trip. -/
theorem decodeEncodeRoundTrip : Obligations.DecodeEncodeRoundTrip := decode_encode_append

/-- Settles O1: each word is the encoding of its instruction. -/
theorem specWordsDecode : Obligations.SpecWordsDecode :=
  have hword (i : Instr) : decode (encode i) = .ok (i, []) := by
    simpa using decode_encode_append i []
  ⟨hword .hlt, hword .ret, hword (.push 7), hword (.pop 2), hword (.prn 9), hword (.call 1), hword (.ldi 3 0xFF),
    hword (.add 9 10), hword (.mul 2 3)⟩

/-- R77 for the nine opcodes of the map. -/
theorem opcode_bits (m : Mnemonic) :
    m.format.length = (m.opcode >>> 6).toNat + 1 ∧ (m.opcode.getLsbD 5 = true ↔ m = .add ∨ m = .mul) ∧
    (m.opcode.getLsbD 4 = true ↔ m = .call ∨ m = .ret) := by
  cases m <;> decide

/-- The encoding of an instruction has the length of its format (R71). -/
theorem encode_length (i : Instr) : (encode i).length = i.mnemonic.format.length := by
  cases i <;> rfl

/-- Settles O5: length and opcode are the mnemonic's, and the map has nine of them. -/
theorem opcodeBitsAgreeWithLengths : Obligations.OpcodeBitsAgreeWithLengths := by
  intro i
  rw [encode_length]
  exact opcode_bits i.mnemonic

/-- Settles O6: such bytes are fetched as that instruction. -/
theorem stepRunsDecodedInstruction : Obligations.StepRunsDecodedInstruction :=
  fun _ _ _ hp hd => step_fetched hp (fetch_of_decode hd)

/-- Settles O7: an instruction memory holds at the pc is fetched. -/
theorem stepRunsInstructionInMemory : Obligations.StepRunsInstructionInMemory :=
  fun _ _ hp hlen hbytes => step_fetched hp (fetch_of_byteAt hlen hbytes)

/-- Settles O9: at such a pc a fetch sees no byte. -/
theorem opcodeFetchPastMemoryFaults : Obligations.OpcodeFetchPastMemoryFaults :=
  fun _ => step_opcodeFetch

/-- Settles O10: the lowest missing operand byte is the one at address 256. -/
theorem missingOperandFaults : Obligations.MissingOperandFaults :=
  fun _ hp hpc hop hlen => step_missingOperand ⟨hp, hpc, rfl⟩ hop hlen

/-- Settles O11, the model's law of a step outside Running. -/
theorem stepOutsideRunningChangesNothing : Obligations.StepOutsideRunningChangesNothing :=
  fun _ => step_outside

/-- Settles O22: HLT is fetched at every address of memory. -/
theorem hltRule : Obligations.HltRule :=
  fun _ => step_hlt

end Sys2Proof.Machine
end

section
/-! SUPPORT. The fault record of a step: `firstError` gives one that R171 lists, with the pc and the opcode that was
fetched, and never code 3 (R128, R172). -/

namespace Sys2Proof.Machine

/-- What R29, R128 and R171 say of a record left at `s`: it names the pc and the opcode that was fetched, is not of
code 3, and is one of the listed records when the pc is in its range. -/
structure State.Records (s : State) (r : FaultRecord) : Prop where
  pc : r.pc = s.pc
  opcode : r.opcode = if s.pc.toNat ≤ 255 then some (s.byteAt 0) else none
  code : r.code ≠ .unsupportedAluOperation
  legal : s.pc.toNat ≤ 256 → LegalRecord r

/-- An OutOfBoundsAddress with the opcode at the pc. -/
theorem records_oob {s : State} {op : Byte} {kind : OobKind} {value : Int} (hpc : s.pc.toNat ≤ 255)
    (hop : s.byteAt 0 = op) (hlegal : LegalRecord (s.oobRecord (some op) kind value)) :
    s.Records (s.oobRecord (some op) kind value) where
  pc := rfl
  opcode := by rw [if_pos hpc, hop]; rfl
  code := nofun
  legal _ := hlegal

/-- A register operand above 7 belongs to an opcode that has register operands. -/
theorem specRegisterBytes_ne_nil {op : Byte} {p : Nat → Bool} {k : Nat} (h : (specRegisterBytes op).find? p = some k) :
    specRegisterBytes op ≠ [] := by
  intro hnil
  rw [hnil] at h
  cases h

/-- Items 5 and 6 of R173 for an instruction within memory. -/
theorem records_of_lateError {s : State} {r : FaultRecord}
    (hlen : s.pc.toNat + specLength (s.byteAt 0) ≤ 256) (h : s.lateError (s.byteAt 0) = some r) : s.Records r := by
  have hpc : s.pc.toNat ≤ 255 := by
    have hpos := specLength_pos (s.byteAt 0)
    omega
  unfold State.lateError at h
  split_ifs at h with hret hbelow habove hpopped <;> obtain rfl := Option.some.inj h <;> refine records_oob hpc rfl ?_
  · obtain ⟨hop, hret⟩ := hret
    have htwo : specLength 0x50 = 2 := rfl
    rw [hop, htwo] at hlen
    have hpc254 : s.pc = 0xFE := BitVec.eq_of_toNat_eq (show s.pc.toNat = 254 by omega)
    rw [State.oobRecord, hop, hpc254]
    exact .returnAddress
  · exact .stackBelow _ _ hlen (by simpa using hbelow.1)
  · refine .stackAbove _ _ hlen ?_
    rcases habove.1 with hop | ⟨hop, -⟩ <;> simp [hop]
  · exact .stackAbove _ _ hlen (by simp [hpopped.1])

/-- The first failing check leaves such a record. -/
theorem records_of_firstError {s : State} {r : FaultRecord} (h : firstError s = some r) : s.Records r := by
  simp only [firstError] at h
  split at h
  case isTrue hpc =>
    obtain rfl := Option.some.inj h
    refine ⟨rfl, (if_neg (by omega)).symm, nofun, fun hle => ?_⟩
    have hpc256 : s.pc = 256 := BitVec.eq_of_toNat_eq (show s.pc.toNat = 256 by omega)
    rw [State.oobRecord, hpc256]
    exact .opcodeFetch
  split at h
  case isTrue hpc hop =>
    obtain rfl := Option.some.inj h
    exact ⟨rfl, (if_pos (by omega)).symm, nofun, fun _ => .illegal _ _ (by omega) hop⟩
  split at h
  case isTrue hpc hop hlen =>
    obtain rfl := Option.some.inj h
    exact records_oob (by omega) rfl (.operandFetch _ _ (by omega) (not_not.mp hop) hlen)
  split at h
  case h_1 hpc hop hlen _ k hk =>
    obtain rfl := Option.some.inj h
    have hi : 7 < (s.byteAt k).toNat := by simpa using List.find?_some hk
    exact records_oob (by omega) rfl
      (.registerIndex _ _ _ (by omega) (not_not.mp hop) (specRegisterBytes_ne_nil hk) hi)
  case h_2 hpc hop hlen _ _ => exact records_of_lateError (by omega) h

/-- Settles O33: a step that ends in Faulted is the fault entry with the first error's record. -/
theorem faultEntryChangesNothingElse : Obligations.FaultEntryChangesNothingElse := by
  intro s t hp h hfaulted
  rcases step_next_cases h with ⟨hnp, -⟩ | ⟨-, r, hr, rfl⟩ | ⟨-, -, i, -, heff⟩
  · exact absurd hp hnp
  · obtain ⟨hpc, hop, -, hlegal⟩ := records_of_firstError hr
    exact ⟨r, rfl, hpc, hop, hlegal⟩
  · exact absurd hfaulted (heff.phase_ne_faulted hp)

/-- Settles O34: the ALU's results are the words' sum and product, and no first error is of code 3. -/
theorem aluComputesModulo256 : Obligations.AluComputesModulo256 := by
  refine ⟨fun va vb => ⟨_, _, alu_add va vb, alu_mul va vb, BitVec.toNat_add va vb, BitVec.toNat_mul va vb⟩,
    fun _ _ _ => rfl, fun s t r hnone h hr => ?_⟩
  rcases step_next_cases h with ⟨-, rfl⟩ | ⟨-, q, hq, rfl⟩ | ⟨-, -, i, -, heff⟩
  · cases hnone.symm.trans hr
  · obtain rfl : q = r := Option.some.inj hr
    exact (records_of_firstError hq).code
  · cases (heff.fault.trans hnone).symm.trans hr

end Sys2Proof.Machine
end

section
/-! SUPPORT. What an effect changes: pc (R25, R26), memory (R50, R66) and registers (R21, R22), each said once for every
instruction, and the statements about a step that follow. -/

namespace Sys2Proof.Machine

/-! ### The pc -/

/-- An effect leaves the pc at an address of memory, or moves it on by the instruction's length. -/
theorem Effect.pc_cases {s t : State} {i : Instr} (hi : s.Holds i) (h : Effect s i t) :
    t.pc.toNat ≤ 255 ∨ t.pc.toNat = s.pc.toNat + specLength i.opcode := by
  have hlen := hi.length
  cases h with
  | hlt => exact .inl hi.pc_le
  | ret | call =>
    left
    rw [State.setPc_pc, toNat_setWidth_pc]
    omega
  | push | pop | prn | ldi | add | mul => exact .inr (toNat_pc_add hlen)

/-- Settles O40: the fault entry keeps the pc, and an effect leaves it within memory or at the instruction's end. -/
theorem programCounterNeverWraps : Obligations.ProgramCounterNeverWraps := by
  intro s t hp hpc h
  rcases step_next_cases h with ⟨hnp, -⟩ | ⟨-, r, -, rfl⟩ | ⟨-, -, i, hi, heff⟩
  · exact absurd hp hnp
  · exact ⟨hpc, fun h256 => .inl ⟨h256, rfl⟩⟩
  · have hlen := hi.length
    rw [hi.opcode]
    rcases heff.pc_cases hi with hle | heq
    · exact ⟨by omega, fun h256 => by omega⟩
    · exact ⟨by omega, fun h256 => .inr (by omega)⟩

/-! ### Memory -/

/-- An effect leaves memory as it was, but for the store of PUSH and CALL just below SP. -/
theorem Effect.mem_cases {s t : State} {i : Instr} (h : Effect s i t) :
    t.mem = s.mem ∨
    ((i.opcode = 0x45 ∨ i.opcode = 0x50) ∧ s.sp ≠ 0 ∧ ∃ v, t.mem = s.mem.write (s.sp - 1).toNat v) := by
  cases h with
  | push hr hsp => exact .inr ⟨.inl rfl, hsp, _, rfl⟩
  | call hr hpc hsp => exact .inr ⟨.inr rfl, hsp, _, rfl⟩
  | hlt | ret | pop | prn | ldi | add | mul => exact .inl rfl

/-- The slot of a push is the address just below SP, without a wrap. -/
theorem toNat_sp_sub_one {s : State} (h : s.sp ≠ 0) : (s.sp - 1).toNat + 1 = s.sp.toNat := by
  have hpos : s.sp.toNat ≠ 0 := fun h0 => h (BitVec.eq_of_toNat_eq h0)
  bv_omega

/-- Settles O38: a step that does nothing or raises keeps memory, and the effects that write it store below SP. -/
theorem onlyPushAndCallWriteMemory : Obligations.OnlyPushAndCallWriteMemory := by
  intro s t a h hne
  rcases step_next_cases h with ⟨-, rfl⟩ | ⟨-, r, -, rfl⟩ | ⟨hp, -, i, hi, heff⟩
  · exact absurd rfl hne
  · exact absurd rfl hne
  rcases heff.mem_cases with hmem | ⟨hop, hsp, v, hmem⟩
  · exact absurd (congrArg (·.read a) hmem) hne
  have hs : s.startsWith i.opcode := hi.startsWith hp
  constructor
  · rcases hop with hop | hop <;> rw [hop] at hs
    · exact .inl hs
    · exact .inr hs
  · by_contra ha
    refine hne ?_
    rw [hmem, Memory.read_write_other]
    exact fun h => ha (h ▸ toNat_sp_sub_one hsp)

/-- An effect keeps the canonical form of memory. -/
theorem Effect.mem_wf {s t : State} {i : Instr} (h : Effect s i t) (hwf : s.mem.wf = true) : t.mem.wf = true := by
  rcases h.mem_cases with hmem | ⟨-, -, v, hmem⟩ <;> rw [hmem]
  · exact hwf
  · exact Memory.wf_write v hwf (s.sp - 1).isLt

/-! ### Registers -/

/-- Which registers an effect may change: the first operand of LDI, ADD, MUL and POP, and R7 for the stack
instructions. -/
theorem Effect.getReg_cases {s t : State} {i : Instr} (h : Effect s i t) (j : Fin 8) :
    t.getReg j = s.getReg j ∨
    (i.opcode ∈ [(0x82 : Byte), 0xA0, 0xA2, 0x46] ∧ ∃ r rest, i.operands = r :: rest ∧ r.toNat = j.val) ∨
    (i.opcode ∈ [(0x45 : Byte), 0x46, 0x50, 0x11] ∧ j = 7) := by
  cases h with
  | hlt | prn => exact .inl rfl
  | @ldi r d hr | @add r _ d _ hr | @mul r _ d _ hr =>
    by_cases hj : j = d
    · exact .inr (.inl ⟨by simp [Instr.opcode, Instr.mnemonic, Mnemonic.opcode], _, _, rfl, hj ▸ hr⟩)
    · exact .inl (State.getReg_setReg_other s _ hj)
  | push | call | ret =>
    by_cases hj : j = 7
    · exact .inr (.inr ⟨by simp [Instr.opcode, Instr.mnemonic, Mnemonic.opcode], hj⟩)
    · left
      simp [getReg_pushed, getReg_setSp, hj]
  | @pop r d hr =>
    by_cases hj : j = 7
    · exact .inr (.inr ⟨by simp [Instr.opcode, Instr.mnemonic, Mnemonic.opcode], hj⟩)
    by_cases hd : j = d
    · exact .inr (.inl ⟨by simp [Instr.opcode, Instr.mnemonic, Mnemonic.opcode], _, _, rfl, hd ▸ hr⟩)
    · left
      rw [getReg_pop, if_neg hj, if_neg hd]

/-- Settles O41: a step that does nothing or raises keeps every register, and an effect changes the ones said above. -/
theorem stepChangesOnlyItsRegisters : Obligations.StepChangesOnlyItsRegisters := by
  intro s t j h hne
  rcases step_next_cases h with ⟨-, rfl⟩ | ⟨-, r, -, rfl⟩ | ⟨hp, -, i, hi, heff⟩
  · exact absurd rfl hne
  · exact absurd rfl hne
  refine ⟨i.opcode, hi.startsWith hp, ?_⟩
  rcases heff.getReg_cases j with hsame | ⟨hop, r, rest, hops, hr⟩ | hstack
  · exact absurd hsame hne
  · exact .inl ⟨hop, hi.byteAt_one hops ▸ hr⟩
  · exact .inr hstack

end Sys2Proof.Machine
end

section
/-! SUPPORT. The host's acts (R38 to R41, R58) and the phases they and the steps lead to (R28). -/

namespace Sys2Proof.Machine

/-! ### One write -/

/-- What a host write while Idle makes of memory (R38). -/
theorem read_hostWrite {s : State} (h : s.phase = .idle) (a v : Byte) (b : Nat) :
    (s.hostWrite a v).mem.read b = if b = a.toNat then v else s.mem.read b := by
  rw [hostWrite_idle a v h, State.writeMem_mem, Memory.read_write]

theorem hostWrite_phase (s : State) (a v : Byte) : (s.hostWrite a v).phase = s.phase := by
  rw [hostWrite_mem_only]

/-- Settles O48: a write while Idle is one write of memory, and no other component. -/
theorem hostWriteRule : Obligations.HostWriteRule :=
  fun s a v => ⟨fun h => ⟨read_hostWrite h a v, hostWrite_mem_only s a v⟩, hostWrite_other a v⟩

/-- Settles O49: start sets the phase and R7. -/
theorem startRule : Obligations.StartRule :=
  fun _ => ⟨fun h => start_idle h, start_other⟩

/-- Settles O50: reset is the construction's state, from any state. -/
theorem resetValues : Obligations.ResetValues := by
  refine fun s => ⟨Memory.read_nil, fun j => ?_, rfl, rfl, rfl, rfl⟩
  exact Vector.getElem_replicate j.isLt

/-! ### A load -/

/-- Outside Idle a run of host writes does nothing. -/
theorem hostWrites_other {s : State} (h : s.phase ≠ .idle) (a : Nat) (bytes : List Byte) :
    s.hostWrites a bytes = s := by
  induction bytes generalizing a with
  | nil => rfl
  | cons b rest ih => rw [State.hostWrites, hostWrite_other _ b h, ih]

/-- While Idle a run of host writes from address `a` on puts its bytes there, if they lie within memory, and leaves every
other cell (R38, R58). -/
theorem read_hostWrites {s : State} (h : s.phase = .idle) {a : Nat} {bytes : List Byte} (hlen : a + bytes.length ≤ 256)
    (b : Nat) :
    (s.hostWrites a bytes).mem.read b = if b < a then s.mem.read b else bytes.getD (b - a) (s.mem.read b) := by
  induction bytes generalizing s a with
  | nil => simp [State.hostWrites]
  | cons v rest ih =>
    rw [List.length_cons] at hlen
    have ha : (BitVec.ofNat 8 a).toNat = a := Nat.mod_eq_of_lt (by omega)
    rw [State.hostWrites, ih ((hostWrite_phase s _ v).trans h) (by omega), read_hostWrite h, ha]
    rcases Nat.lt_trichotomy b a with hlt | rfl | hgt
    · simp [hlt, Nat.lt_succ_of_lt hlt, Nat.ne_of_lt hlt]
    · simp
    · have hsub : b - a = (b - (a + 1)) + 1 := by omega
      simp [hsub, Nat.not_lt.mpr hgt, Nat.not_lt.mpr (Nat.le_of_lt hgt), Nat.ne_of_gt hgt]

theorem load_of_length_le {s : State} {image : List Byte} (h : image.length ≤ 256) :
    s.load image = s.hostWrites 0 image := if_neg (Nat.not_lt.mpr h)

/-- An image longer than memory is refused as a whole (R58). -/
theorem load_refused {s : State} {image : List Byte} (h : 256 < image.length) : s.load image = s := if_pos h

/-- Outside Idle a load does nothing (R38, R58). -/
theorem load_other {s : State} (h : s.phase ≠ .idle) (image : List Byte) : s.load image = s := by
  by_cases hlen : image.length ≤ 256
  · rw [load_of_length_le hlen, hostWrites_other h]
  · exact load_refused (by omega)

theorem load_phase (s : State) (image : List Byte) : (s.load image).phase = s.phase := by
  obtain ⟨m, hm⟩ := load_mem_only s image
  rw [hm]

/-- Settles O47: the writes of a load go to the addresses from 0 on, and change memory alone. -/
theorem loadRule : Obligations.LoadRule := by
  refine fun s image => ⟨load_refused, fun h => load_other h image, fun h hlen => ⟨fun a => ?_, ?_⟩⟩
  · rw [load_of_length_le hlen, read_hostWrites h (by omega)]
    simp
  · obtain ⟨m, hm⟩ := load_mem_only s image
    rw [hm]

/-! ### Phases -/

/-- The end of a run: no act of the host but reset changes anything outside Idle (R38, R39, R58). -/
theorem host_other {s : State} (h : s.phase ≠ .idle) {a : HostAction} (ha : a ≠ .reset) : s.host a = s := by
  cases a with
  | write a v => exact hostWrite_other a v h
  | load image => exact load_other h image
  | start => exact start_other h
  | reset => exact absurd rfl ha

/-- Settles O36: Halted and Faulted are neither Running nor Idle. -/
theorem onlyResetLeavesAnEnd : Obligations.OnlyResetLeavesAnEnd := by
  intro s a hend
  have hnr : s.phase ≠ .running := by rcases hend with h | h <;> rw [h] <;> decide
  have hni : s.phase ≠ .idle := by rcases hend with h | h <;> rw [h] <;> decide
  exact ⟨step_outside hnr, host_other hni, rfl⟩

/-- Settles O35: a step does nothing, raises or has an effect; a write and a load change memory alone. -/
theorem phaseTransitions : Obligations.PhaseTransitions := by
  refine ⟨fun s t h => ?_, fun s a => ?_⟩
  · rcases step_next_cases h with ⟨-, rfl⟩ | ⟨hp, r, hr, rfl⟩ | ⟨hp, -, i, hi, heff⟩
    · exact .inl rfl
    · exact .inr (.inr ⟨hp, r, (records_of_firstError hr).pc, rfl⟩)
    · rcases heff.phase with ⟨rfl, hhalted⟩ | ⟨-, hsame⟩
      · exact .inr (.inl ⟨hi.startsWith hp, hhalted⟩)
      · exact .inl hsame
  · cases a with
    | write a v => exact .inl (hostWrite_phase s a v)
    | load image => exact .inl (load_phase s image)
    | start =>
      by_cases h : s.phase = .idle
      · exact .inr (.inl ⟨h, rfl, congrArg State.phase (start_idle h)⟩)
      · exact .inl (congrArg State.phase (start_other h))
    | reset => exact .inr (.inr ⟨rfl, rfl⟩)

end Sys2Proof.Machine
end

section
/-! SUPPORT. The invariant (R25, R29, R50, R171): it holds at reset, and every step and every act of the host keeps it.
Canonical memories that read the same are the same (log entry 10). -/

namespace Sys2Proof.Machine

/-! ### Steps -/

/-- The fault entry keeps the invariant, if its record is one R171 lists. -/
theorem Inv.withFault {s : State} (h : Inv s) {r : FaultRecord} (hr : LegalRecord r) : Inv (s.withFault r) where
  memory := h.memory
  pcRange := h.pcRange
  faultIff := iff_of_false nofun (not_not_intro rfl)
  record _ hq := Option.some.inj hq ▸ hr
  idle := nofun

/-- The effect of an instruction a Running core holds at the pc keeps the invariant. -/
theorem Inv.effect {s t : State} {i : Instr} (h : Inv s) (hp : s.phase = .running) (hi : s.Holds i)
    (heff : Effect s i t) : Inv t := by
  have hnone : t.fault = none := heff.fault.trans (h.faultIff.mpr (by rw [hp]; decide))
  refine ⟨heff.mem_wf h.memory, ?_, iff_of_true hnone (heff.phase_ne_faulted hp), fun r hr => ?_, fun hidle => ?_⟩
  · have hlen := hi.length
    rcases heff.pc_cases hi with hle | heq <;> omega
  · cases hnone.symm.trans hr
  · rcases heff.phase_of_running hp with ht | ht <;> cases ht.symm.trans hidle

/-- Settles O54: the fault entry's record is one R171 lists, the pc being in its range, and an effect keeps each clause. -/
theorem stepKeepsInvariant : Obligations.StepKeepsInvariant := by
  intro s t h hs
  rcases step_next_cases hs with ⟨-, rfl⟩ | ⟨-, r, hr, rfl⟩ | ⟨hp, -, i, hi, heff⟩
  · exact h
  · exact h.withFault ((records_of_firstError hr).legal h.pcRange)
  · exact h.effect hp hi heff

/-! ### The host -/

/-- Settles O53, clause by clause, from the construction's values. -/
theorem resetSatisfiesInvariant : Obligations.ResetSatisfiesInvariant where
  memory := Memory.wf_reset
  pcRange := Nat.zero_le _
  faultIff := iff_of_true rfl nofun
  record := nofun
  idle _ := ⟨rfl, rfl, rfl⟩

/-- A change of memory alone keeps the invariant, if memory stays canonical. -/
theorem Inv.withMem {s : State} (h : Inv s) {m : Memory} (hm : m.wf = true) : Inv { s with mem := m } where
  memory := hm
  pcRange := h.pcRange
  faultIff := h.faultIff
  record := h.record
  idle := h.idle

theorem Inv.hostWrite {s : State} (h : Inv s) (a v : Byte) : Inv (s.hostWrite a v) := by
  by_cases hidle : s.phase = .idle
  · rw [hostWrite_idle a v hidle]
    exact h.withMem (Memory.wf_write v h.memory a.isLt)
  · rw [hostWrite_other a v hidle]
    exact h

theorem Inv.hostWrites {s : State} (h : Inv s) (a : Nat) (bytes : List Byte) : Inv (s.hostWrites a bytes) := by
  induction bytes generalizing s a with
  | nil => exact h
  | cons b rest ih => exact ih (h.hostWrite _ b) (a + 1)

theorem Inv.load {s : State} (h : Inv s) (image : List Byte) : Inv (s.load image) := by
  unfold State.load
  split
  · exact h
  · exact h.hostWrites 0 image

theorem Inv.start {s : State} (h : Inv s) : Inv s.start := by
  by_cases hidle : s.phase = .idle
  · have hnone : s.fault = none := h.faultIff.mpr (by rw [hidle]; decide)
    rw [start_idle hidle]
    exact ⟨h.memory, h.pcRange, iff_of_true hnone nofun, h.record, nofun⟩
  · rw [start_other hidle]
    exact h

/-- Settles O55, act by act. -/
theorem hostKeepsInvariant : Obligations.HostKeepsInvariant := by
  intro s a h
  cases a with
  | write a v => exact h.hostWrite a v
  | load image => exact h.load image
  | start => exact h.start
  | reset => exact resetSatisfiesInvariant

/-- Settles O56, by induction over the steps and acts that lead to the state. -/
theorem reachableStatesSatisfyInvariant : Obligations.ReachableStatesSatisfyInvariant := by
  intro s h
  induction h with
  | reset => exact resetSatisfiesInvariant
  | host s a _ ih => exact hostKeepsInvariant s a ih
  | step s t _ hs ih => exact stepKeepsInvariant s t ih hs

/-! ### Canonical memories -/

/-- Below its first entry a canonical memory reads the construction value. -/
theorem Memory.read_of_above {m : Memory} {c a : Nat} (h : Memory.above c m = true) (ha : a ≤ c) :
    m.read a = unwrittenByte := by
  induction m with
  | nil => rfl
  | cons e rest ih =>
    obtain ⟨b, w⟩ := e
    simp only [Memory.above, List.all_cons, Bool.and_eq_true, decide_eq_true_eq] at h
    obtain ⟨hb, hrest⟩ := h
    rw [Memory.read, if_neg (by omega)]
    exact ih hrest

/-- A canonical memory with an entry reads a written byte somewhere in memory. -/
theorem Memory.read_cons_ne {a : Nat} {v : Byte} {rest : Memory} (h : Memory.wf ((a, v) :: rest) = true) :
    a < 256 ∧ Memory.read ((a, v) :: rest) a ≠ unwrittenByte := by
  obtain ⟨ha, hv, -, -⟩ := Memory.wf_cons.mp h
  exact ⟨ha, by rwa [Memory.read, if_pos rfl]⟩

/-- The first address of a canonical memory is the least one that reads a written byte. -/
theorem Memory.head_le {a b : Nat} {v w : Byte} {m n : Memory} (hm : Memory.wf ((a, v) :: m) = true)
    (hn : Memory.wf ((b, w) :: n) = true)
    (h : ∀ c, c < 256 → Memory.read ((a, v) :: m) c = Memory.read ((b, w) :: n) c) : b ≤ a := by
  by_contra hlt
  obtain ⟨ha, hne⟩ := Memory.read_cons_ne hm
  obtain ⟨-, -, habove, -⟩ := Memory.wf_cons.mp hn
  refine hne ?_
  rw [h a ha, Memory.read, if_neg (by omega), Memory.read_of_above habove (by omega)]

/-- Settles O57, by induction on the first memory: the two first entries have the same address, since each is the least
written one, and so the same byte; the rest reads the same, since it reads nothing written there. -/
theorem canonicalMemoryIsUnique : Obligations.CanonicalMemoryIsUnique := by
  intro m
  induction m with
  | nil =>
    intro n _ hn h
    cases n with
    | nil => rfl
    | cons e n =>
      obtain ⟨ha, hne⟩ := Memory.read_cons_ne hn
      exact absurd (h _ ha).symm hne
  | cons e m ih =>
    intro n hm hn h
    obtain ⟨a, v⟩ := e
    cases n with
    | nil =>
      obtain ⟨ha, hne⟩ := Memory.read_cons_ne hm
      exact absurd (h _ ha) hne
    | cons e n =>
      obtain ⟨b, w⟩ := e
      obtain rfl : a = b := Nat.le_antisymm (Memory.head_le hn hm fun c hc => (h c hc).symm) (Memory.head_le hm hn h)
      obtain ⟨ha, -, hma, hmwf⟩ := Memory.wf_cons.mp hm
      obtain ⟨-, -, hna, hnwf⟩ := Memory.wf_cons.mp hn
      have hv : v = w := by simpa [Memory.read] using h a ha
      have hrest : m = n := by
        refine ih n hmwf hnwf fun c hc => ?_
        by_cases hca : c = a
        · rw [Memory.read_of_above hma (by omega), Memory.read_of_above hna (by omega)]
        · simpa [Memory.read, hca] using h c hc
      rw [hv, hrest]

end Sys2Proof.Machine
end

section
/-! SUPPORT. Every instruction's complete answer (R101 to R156), and the rules of PUSH, POP, CALL and RET as one step of a
Running core. -/

namespace Sys2Proof.Machine

/-! ### The next states, component by component -/

/-- Settles O24: the three instructions' effects. -/
theorem ldiPrnHltComplete : Obligations.LdiPrnHltComplete :=
  fun _ _ imm _ hr => ⟨exec_of_effect (.ldi hr imm), exec_of_effect (.prn hr), exec_of_effect .hlt⟩

/-- Settles O25: the two instructions' effects. -/
theorem addMulComplete : Obligations.AddMulComplete :=
  fun _ _ _ _ _ ha hb => ⟨exec_of_effect (.add ha hb), exec_of_effect (.mul ha hb)⟩

/-- PUSH where SP is not 0 (R135). -/
theorem exec_push_complete {s : State} {r : Byte} {d : Fin 8} (hr : r.toNat = d.val) (hsp : s.sp ≠ 0) :
    exec (.push r) s = .next { s with
      regs := s.regs.set 7 (s.sp - 1), mem := s.mem.write (s.sp - 1).toNat (s.getReg d), pc := s.pc + 2 } :=
  exec_of_effect (.push hr hsp)

/-- POP of a register other than R7 where SP is not 255 (R140). -/
theorem exec_pop_complete {s : State} {r : Byte} {d : Fin 8} (hr : r.toNat = d.val) (hd : d ≠ 7) (hsp : s.sp ≠ 255) :
    exec (.pop r) s = .next { s with
      regs := (s.regs.set d (s.mem.read s.sp.toNat)).set 7 (s.sp + 1), pc := s.pc + 2 } := by
  have hpop : (s.popped d).sp = s.sp := by rw [sp_popped, if_neg hd]
  rw [exec_of_effect (.pop hr (hpop ▸ hsp)), hpop]
  rfl

/-- POP R7 where the popped byte is not 255: SP takes that byte and rises by 1 (R140). -/
theorem exec_pop_sp_complete {s : State} {r : Byte} {d : Fin 8} (hr : r.toNat = d.val) (hd : d = 7)
    (hv : s.mem.read s.sp.toNat ≠ 255) :
    exec (.pop r) s = .next { s with regs := s.regs.set 7 (s.mem.read s.sp.toNat + 1), pc := s.pc + 2 } := by
  have hpop : (s.popped d).sp = s.mem.read s.sp.toNat := by rw [sp_popped, if_pos hd, State.readMem]
  rw [exec_of_effect (.pop hr (hpop ▸ hv)), hpop, hd]
  exact congrArg (fun regs => Host.Outcome.next { s with regs := regs, pc := s.pc + 2 }) (Vector.set_set ..)

/-- CALL where the return address fits and SP is not 0 (R150). -/
theorem exec_call_complete {s : State} {r : Byte} {d : Fin 8} (hr : r.toNat = d.val) (hpc : s.pc.toNat + 2 ≤ 255)
    (hsp : s.sp ≠ 0) : exec (.call r) s = .next { s with
      regs := s.regs.set 7 (s.sp - 1)
      mem := s.mem.write (s.sp - 1).toNat (BitVec.ofNat 8 (s.pc.toNat + 2))
      pc := (if d = 7 then s.sp - 1 else s.getReg d).setWidth 9 } := by
  rw [exec_of_effect (.call hr hpc hsp), getReg_pushed]
  rfl

/-- RET where SP is not 255 (R156). -/
theorem exec_ret_complete {s : State} (hsp : s.sp ≠ 255) : exec .ret s = .next { s with
    regs := s.regs.set 7 (s.sp + 1), pc := (s.mem.read s.sp.toNat).setWidth 9 } :=
  exec_of_effect (.ret hsp)

/-- Settles O26, POP R7 apart from the other registers. -/
theorem pushPopComplete : Obligations.PushPopComplete :=
  fun _ _ _ hr => ⟨exec_push_complete hr, exec_pop_complete hr, exec_pop_sp_complete hr⟩

/-- Settles O27, from the complete answers of CALL and RET. -/
theorem callRetComplete : Obligations.CallRetComplete :=
  fun _ => ⟨fun _ _ => exec_call_complete, exec_ret_complete⟩

/-! ### The rules of the stack instructions -/

/-- The clauses that PUSH, POP and CALL share with each instruction of one register operand: at the end of memory the
fetch raises; otherwise the index is checked, and with a register there is the instruction runs. -/
theorem step_oneRegister {s : State} {i : Instr} (h : s.startsWith i.opcode) (hops : i.operands = [s.byteAt 1])
    (hregs : i.registerOperands = [s.byteAt 1]) :
    (255 < s.pc.toNat + 1 → step s = s.oobFault (some i.opcode) .fetchAddress 256) ∧
    (s.pc.toNat + 1 ≤ 255 → step s = exec i s ∧
      (7 < (s.byteAt 1).toNat → step s = s.oobFault (some i.opcode) .registerIndex (s.byteAt 1).toNat)) := by
  have hone : i.operands.length = 1 := congrArg List.length hops
  have htwo : specLength i.opcode = 1 + i.operands.length := specLength_opcode i
  refine ⟨fun hlen => step_missingOperand h (opcode_mem_specOpcodes i.mnemonic) (by omega), fun hlen => ?_⟩
  have hrun : step s = exec i s := step_of_operands h (by omega) (by rw [hone, hops]; rfl)
  exact ⟨hrun, fun hr => hrun.trans (exec_first_registerIndex hregs hr s)⟩

/-- Settles O18: after the clauses shared with POP and CALL, SP decides between the failure and the effect of PUSH. -/
theorem pushRule : Obligations.PushRule := by
  intro s h
  obtain ⟨hfetch, hin⟩ := step_oneRegister (i := .push (s.byteAt 1)) h rfl rfl
  refine ⟨hfetch, fun hlen => ?_⟩
  obtain ⟨hrun, hindex⟩ := hin hlen
  exact ⟨hindex, fun d hd => ⟨fun hsp => hrun.trans (exec_of_failure (.pushBelow hd hsp)),
    fun hsp => hrun.trans (exec_push_complete hd hsp)⟩⟩

/-- Settles O19: for a register other than R7 the SP that is checked is the old one, for R7 the popped byte. -/
theorem popRule : Obligations.PopRule := by
  intro s h
  obtain ⟨hfetch, hin⟩ := step_oneRegister (i := .pop (s.byteAt 1)) h rfl rfl
  refine ⟨hfetch, fun hlen => ?_⟩
  obtain ⟨hrun, hindex⟩ := hin hlen
  refine ⟨hindex, fun d hne hd => ⟨fun hsp => ?_, fun hsp => ?_⟩, fun h7 => ?_⟩
  · refine hrun.trans (exec_of_failure (.popAbove hd ?_))
    rw [sp_popped, if_neg hne, hsp]
  · exact hrun.trans (exec_pop_complete hd hne hsp)
  · have hd : (s.byteAt 1).toNat = (7 : Fin 8).val := by rw [h7]; rfl
    refine ⟨fun hv => ?_, fun hv => hrun.trans (exec_pop_sp_complete hd rfl hv)⟩
    refine hrun.trans (exec_of_failure (.popAbove hd ?_))
    rw [sp_popped, if_pos rfl, State.readMem, hv]

/-- Settles O20: a CALL within memory whose return address does not fit ends at address 255, so that address is 256. -/
theorem callRule : Obligations.CallRule := by
  intro s h
  obtain ⟨hfetch, hin⟩ := step_oneRegister (i := .call (s.byteAt 1)) h rfl rfl
  refine ⟨hfetch, fun hlen => ?_⟩
  obtain ⟨hrun, hindex⟩ := hin hlen
  refine ⟨hindex, fun d hd => ⟨fun hpc => ?_, fun hpc hsp => ?_, fun hpc hsp => ?_⟩⟩
  · have h256 : (s.pc.toNat + 2 : Int) = 256 := by omega
    exact h256 ▸ hrun.trans (exec_of_failure (.returnAddress hd hpc))
  · exact hrun.trans (exec_of_failure (.callBelow hd hpc hsp))
  · exact hrun.trans (exec_call_complete hd hpc hsp)

/-- Settles O21: SP decides between the failure and the effect of RET. -/
theorem retRule : Obligations.RetRule :=
  fun _ h => ⟨fun hsp => (step_ret h).trans (exec_of_failure (.retAbove hsp)),
    fun hsp => (step_ret h).trans (exec_ret_complete hsp)⟩

end Sys2Proof.Machine
end

section
/-! SUPPORT. Frames: what each instruction that does not raise leaves as it was. -/

namespace Sys2Proof.Machine

/-- LDI, ADD and MUL write the register of their first operand and move the pc on. -/
theorem effect_registerForm {s t : State} {i : Instr} {r b : Byte} (hi : i = .ldi r b ∨ i = .add r b ∨ i = .mul r b)
    (h : Effect s i t) : ∃ (d : Fin 8) (v : Byte), r.toNat = d.val ∧ t = (s.setReg d v).advance 3 := by
  rcases hi with rfl | rfl | rfl
  · cases h with | ldi hr => exact ⟨_, _, hr, rfl⟩
  · cases h with | add ha => exact ⟨_, _, ha, rfl⟩
  · cases h with | mul ha => exact ⟨_, _, ha, rfl⟩

/-- PUSH and CALL push a byte and set the pc. -/
theorem effect_storingForm {s t : State} {i : Instr} {r : Byte} (hi : i = .push r ∨ i = .call r)
    (h : Effect s i t) : ∃ (v : Byte) (p : PcWord), s.sp ≠ 0 ∧ t = (s.pushed v).setPc p := by
  rcases hi with rfl | rfl
  · cases h with | push _ hsp => exact ⟨_, _, hsp, rfl⟩
  · cases h with | call _ _ hsp => exact ⟨_, _, hsp, rfl⟩

/-- Settles O29: one register is written, and nothing else but the pc. -/
theorem registerFormsFrame : Obligations.RegisterFormsFrame := by
  intro i r b s t hi h
  refine (effect_of_exec h).imp_right fun heff => ?_
  obtain ⟨d, v, hr, rfl⟩ := effect_registerForm hi heff
  refine ⟨fun j hj => ?_, fun _ _ => rfl, rfl, rfl, rfl⟩
  exact State.getReg_setReg_other s v fun hjd => hj (hjd ▸ hr.symm)

/-- Settles O30: PRN emits and moves the pc on, HLT sets the phase. -/
theorem prnHltFrame : Obligations.PrnHltFrame := by
  refine ⟨fun r s t h => (effect_of_exec h).imp_right fun heff => ?_, fun s t h => ?_⟩
  · cases heff
    exact ⟨fun _ _ => rfl, fun _ _ => rfl, rfl, rfl⟩
  · cases h
    exact ⟨fun _ _ => rfl, fun _ _ => rfl, rfl, rfl, rfl⟩

/-- A push changes no register but R7. -/
theorem sameRegsBut_pushed (s : State) (v : Byte) : SameRegsBut [7] s (s.pushed v) := by
  intro j hj
  rw [getReg_pushed, if_neg (by simpa using hj)]

/-- A push changes no byte of memory but the one at its slot. -/
theorem sameMemBut_pushed {s : State} (hsp : s.sp ≠ 0) (v : Byte) {slot : Byte} (hslot : s.pushSlot = .ok slot) :
    SameMemBut [slot.toNat] s (s.pushed v) := by
  obtain rfl : s.sp - 1 = slot := Except.ok.inj ((State.pushSlot_ok hsp).symm.trans hslot)
  exact fun a ha => Memory.read_write_other s.mem v (by simpa using ha)

/-- Settles O31: besides the push of either, only the pc changes. -/
theorem storingFormsFrame : Obligations.StoringFormsFrame := by
  intro i r s t hi h
  refine (effect_of_exec h).imp_right fun heff => ?_
  obtain ⟨v, p, hsp, rfl⟩ := effect_storingForm hi heff
  exact ⟨sameRegsBut_pushed s v, fun slot => sameMemBut_pushed hsp v, rfl, rfl, rfl⟩

/-- Settles O32: POP writes its register and SP, RET writes SP, and both read memory only. -/
theorem popRetFrame : Obligations.PopRetFrame := by
  refine ⟨fun r s t h => (effect_of_exec h).imp_right fun heff => ?_,
    fun s t h => (effect_of_exec h).imp_right fun heff => ?_⟩
  · cases heff with
    | @pop _ d hr =>
      refine ⟨fun j h7 hj => ?_, fun _ _ => rfl, rfl, rfl, rfl⟩
      have hjd : j ≠ d := fun hjd => hj (hjd ▸ hr.symm)
      rw [getReg_pop, if_neg h7, if_neg hjd]
  · cases heff with
    | ret hsp =>
      refine ⟨fun j hj => ?_, fun _ _ => rfl, rfl, rfl, rfl⟩
      rw [State.getReg_setPc, getReg_setSp, if_neg (by simpa using hj)]

end Sys2Proof.Machine
end

section
/-! SUPPORT. Phase, fault record and output steer no instruction (the hidden side of R32). -/

namespace Sys2Proof.Machine

/-- `s` with another phase, fault record and output. -/
def State.withStatus (s : State) (q : Phase) (f : Option FaultRecord) (o : List Byte) : State :=
  { s with phase := q, fault := f, out := o }

section
variable {s : State} {i : Instr} (q : Phase) (f : Option FaultRecord) (o : List Byte)

/-- The checks of an instruction read none of the three. -/
theorem Failure.withStatus {e : CoreError} (h : Failure s i e) : Failure (s.withStatus q f o) i e := by
  cases h with
  | firstIndex hi hr => exact .firstIndex hi hr
  | secondIndex hi ha hr => exact .secondIndex hi ha hr
  | returnAddress hr hpc => exact .returnAddress (s := s.withStatus q f o) hr hpc
  | callBelow hr hpc hsp => exact .callBelow hr hpc hsp
  | pushBelow hr hsp => exact .pushBelow hr hsp
  | popAbove hr hsp => exact .popAbove hr hsp
  | retAbove hsp => exact .retAbove hsp

/-- An instruction that writes none of the three does the same to the rest, whatever they are. -/
theorem Effect.withStatus {t : State} (h : Effect s i t) (hhlt : i ≠ .hlt) (hprn : ∀ r, i ≠ .prn r) :
    Effect (s.withStatus q f o) i (t.withStatus q f o) := by
  cases h with
  | hlt => exact absurd rfl hhlt
  | prn => exact absurd rfl (hprn _)
  | ret hsp => exact .ret (s := s.withStatus q f o) hsp
  | push hr hsp => exact .push (s := s.withStatus q f o) hr hsp
  | pop hr hsp => exact .pop (s := s.withStatus q f o) hr hsp
  | call hr hpc hsp => exact .call (s := s.withStatus q f o) hr hpc hsp
  | ldi hr imm => exact .ldi (s := s.withStatus q f o) hr imm
  | add ha hb => exact .add (s := s.withStatus q f o) ha hb
  | mul ha hb => exact .mul (s := s.withStatus q f o) ha hb

end

/-- Settles O43: a failure is one at the other state, too, with the same record; HLT and PRN write their own component;
every other effect is the same on the rest of the state. -/
theorem statusAndOutputDoNotSteer : Obligations.StatusAndOutputDoNotSteer := by
  intro i s q f o
  rcases failure_or_effect i s with ⟨e, hfail⟩ | ⟨t, heff⟩
  · exact ⟨_, _, exec_of_failure hfail, exec_of_failure (hfail.withStatus q f o), rfl, rfl, rfl,
      ⟨[], (List.append_nil _).symm, (List.append_nil _).symm, .inl rfl⟩, .inl ⟨_, rfl, rfl, rfl, rfl⟩⟩
  by_cases hhlt : i = .hlt
  · subst hhlt
    exact ⟨_, _, rfl, rfl, rfl, rfl, rfl, ⟨[], (List.append_nil _).symm, (List.append_nil _).symm, .inl rfl⟩,
      .inr ⟨rfl, rfl, .inr ⟨rfl, rfl, rfl⟩⟩⟩
  by_cases hprn : ∃ r, i = .prn r
  · obtain ⟨r, rfl⟩ := hprn
    cases heff with
    | prn hr =>
      exact ⟨_, _, exec_of_effect (.prn hr), exec_of_effect (.prn hr), rfl, rfl, rfl,
        ⟨_, rfl, rfl, .inr ⟨r, rfl⟩⟩, .inr ⟨rfl, rfl, .inl ⟨rfl, rfl⟩⟩⟩
  · have hne : ∀ r, i ≠ .prn r := fun r hr => hprn ⟨r, hr⟩
    have hphase : t.phase = s.phase := heff.phase.resolve_left (fun h => hhlt h.1) |>.2
    have hout : t.out = s.out := exec_out_of_ne_prn hne (exec_of_effect heff)
    exact ⟨_, _, exec_of_effect heff, exec_of_effect (heff.withStatus q f o hhlt hne), rfl, rfl, rfl,
      ⟨[], hout.trans (List.append_nil _).symm, (List.append_nil _).symm, .inl rfl⟩,
      .inr ⟨heff.fault, rfl, .inl ⟨hphase, rfl⟩⟩⟩

end Sys2Proof.Machine
end

section
/-! SUPPORT. Two steps in a row: PUSH then POP (R145), CALL then RET (R160), and a store into the instruction that runs
next (R64). -/

namespace Sys2Proof.Machine

/-! ### PUSH then POP -/

theorem sp_pushed (s : State) (v : Byte) : (s.pushed v).sp = s.sp - 1 := getReg_pushed s v 7

/-- The byte just pushed is the one at SP. -/
theorem readMem_sp_pushed (s : State) (v : Byte) : (s.pushed v).readMem (s.pushed v).sp = v := by
  rw [sp_pushed]
  exact Memory.read_write_self ..

/-- Below its highest value a pushed SP can be incremented again. -/
theorem sp_sub_one_ne {s : State} (h : s.sp ≠ 0) : s.sp - 1 ≠ 255 := by
  intro h255
  have hone := toNat_sp_sub_one h
  have hlt := s.sp.isLt
  rw [h255] at hone
  change 255 + 1 = _ at hone
  omega

/-- What a PUSH that does not raise leaves for the next step: SP one lower, the pushed byte at it, every other register as
it was. -/
theorem exec_push_next {s : State} {r : Byte} {d : Fin 8} (hr : r.toNat = d.val) (hsp : s.sp ≠ 0) :
    ∃ t, exec (.push r) s = .next t ∧ t.phase = s.phase ∧ t.pc = s.pc + 2 ∧ t.sp = s.sp - 1 ∧
      t.readMem t.sp = s.getReg d ∧ ∀ j, j ≠ 7 → t.getReg j = s.getReg j :=
  ⟨_, exec_of_effect (.push hr hsp), rfl, rfl, sp_pushed s (s.getReg d), readMem_sp_pushed s _,
    fun j hj => (getReg_pushed s (s.getReg d) j).trans (if_neg hj)⟩

/-- Settles O44: POP reads the pushed byte at the decremented SP, which for a register other than R7 is incremented back,
while R7 takes the byte itself before the increment. -/
theorem pushThenPop : Obligations.PushThenPop := by
  intro s r r2 d e hr hr2 hsp
  obtain ⟨t, hpush, -, hpc, htsp, hread, hreg⟩ := exec_push_next hr hsp
  have hpop : (t.popped e).sp = if e = 7 then s.getReg d else s.sp - 1 := by rw [sp_popped, hread, htsp]
  by_cases he : e = 7
  · rw [if_pos he] at hpop
    by_cases hv : s.getReg d = 255
    · exact ⟨t, _, hpush, exec_of_failure (.popAbove hr2 (hpop.trans hv)), fun hne => absurd he hne,
        fun _ hnv => absurd hv hnv, fun _ _ => rfl⟩
    · refine ⟨t, _, hpush, exec_of_effect (.pop hr2 (hpop ▸ hv)), fun hne => absurd he hne, fun _ _ => ⟨?_, ?_⟩,
        fun _ h => absurd h hv⟩
      · rw [State.sp, getReg_pop, hpop]
        rfl
      · intro j hj
        have hj7 : j ≠ 7 := by simpa using hj
        rw [getReg_pop, if_neg hj7, if_neg (he ▸ hj7), hreg j hj7]
  · rw [if_neg he] at hpop
    refine ⟨t, _, hpush, exec_of_effect (.pop hr2 (hpop ▸ sp_sub_one_ne hsp)), fun _ => ⟨?_, ?_, ?_, ?_⟩,
      fun h => absurd h he, fun h => absurd h he⟩
    · rw [getReg_pop, if_neg he, if_pos rfl, hread]
    · rw [State.sp, getReg_pop, hpop, BitVec.sub_add_cancel]
      rfl
    · intro j hj
      have hje : j ≠ e := by simpa using hj
      rw [getReg_pop, hpop, BitVec.sub_add_cancel]
      by_cases hj7 : j = 7
      · rw [if_pos hj7, hj7]
        rfl
      · rw [if_neg hj7, if_neg hje, hreg j hj7]
    · rw [State.advance_pc]
      exact (congrArg (· + 2) hpc).trans (BitVec.add_assoc ..)

/-! ### CALL then RET -/

/-- Putting SP back undoes what a push does to the registers. -/
theorem regs_pushed_setSp (s : State) (v : Byte) : ((s.pushed v).setSp s.sp).regs = s.regs :=
  (Vector.set_set (s.sp - 1) (by decide : 7 < 8)).trans (Vector.set_getElem_self (by decide : 7 < 8))

/-- A step that does not raise has the effect of an instruction with the opcode at the pc. -/
theorem effect_of_step_opcode {s t : State} {m : Mnemonic} (hs : s.startsWith m.opcode) (h : step s = .next t)
    (hnf : t.phase ≠ .faulted) : ∃ i : Instr, i.mnemonic = m ∧ Effect s i t := by
  obtain ⟨hp, -, hbyte⟩ := hs
  obtain ⟨i, hi, heff⟩ := effect_of_step hp h hnf
  have hop : i.opcode = m.opcode := hi.opcode.symm.trans hbyte
  have hm : dispatch i.opcode = some m := (dispatch_some_iff _ m).mpr hop
  exact ⟨i, Option.some.inj (((dispatch_some_iff _ _).mpr rfl).symm.trans hm), heff⟩

theorem effect_of_step_call {s t : State} (hs : s.startsWith 0x50) (h : step s = .next t) (hnf : t.phase ≠ .faulted) :
    ∃ p : PcWord, s.pc.toNat + 2 ≤ 255 ∧ s.sp ≠ 0 ∧
      t = (s.pushed (BitVec.ofNat 8 (s.pc.toNat + 2))).setPc p := by
  obtain ⟨i, hi, heff⟩ := effect_of_step_opcode (m := .call) hs h hnf
  cases heff with
  | call _ hpc hsp => exact ⟨_, hpc, hsp, rfl⟩
  | _ => cases hi

theorem effect_of_step_ret {s t : State} (hs : s.startsWith 0x11) (h : step s = .next t) (hnf : t.phase ≠ .faulted) :
    t = (s.setSp (s.sp + 1)).setPc ((s.readMem s.sp).setWidth 9) := by
  obtain ⟨i, hi, heff⟩ := effect_of_step_opcode (m := .ret) hs h hnf
  cases heff with
  | ret => rfl
  | _ => cases hi

/-- Settles O45: RET reads back the return address CALL pushed, and increments SP back. -/
theorem callThenRet : Obligations.CallThenRet := by
  intro s t u hs hst ht htu hu
  obtain ⟨p, hpc, hsp, rfl⟩ := effect_of_step_call hs hst (by rw [ht.1]; decide)
  obtain rfl := effect_of_step_ret ht htu (by rw [hu]; decide)
  let v : Byte := BitVec.ofNat 8 (s.pc.toNat + 2)
  have hv : v.toNat = s.pc.toNat + 2 := Nat.mod_eq_of_lt (by omega)
  have hread : (s.pushed v).readMem (s.pushed v).sp = v := readMem_sp_pushed s v
  refine ⟨?_, ?_, rfl, ?_⟩
  · rw [State.setPc_pc, toNat_setWidth_pc]
    exact (congrArg BitVec.toNat hread).trans hv
  · have hback : (s.pushed v).sp + 1 = s.sp := by rw [sp_pushed, BitVec.sub_add_cancel]
    have hregs := regs_pushed_setSp s v
    rw [← hback] at hregs
    exact hregs
  · have hslot : s.sp.toNat - 1 = (s.pushed v).sp.toNat := by
      rw [sp_pushed, ← toNat_sp_sub_one hsp, Nat.add_sub_cancel]
    rw [hslot]
    exact (congrArg BitVec.toNat hread).trans hv

/-! ### A store into the next instruction -/

/-- Settles O46: the slot of the push is the address the pc moves on to. -/
theorem pushedByteIsFetchedNext : Obligations.PushedByteIsFetchedNext := by
  intro s t d hs hd hspc h
  have hlt := s.sp.isLt
  have hsp : s.sp ≠ 0 := fun h0 => absurd (hspc.symm.trans (congrArg BitVec.toNat h0)) (Nat.succ_ne_zero _)
  obtain ⟨-, hin⟩ := step_oneRegister (i := .push (s.byteAt 1)) hs rfl rfl
  obtain ⟨hrun, -⟩ := hin (by omega)
  obtain ⟨u, hu, hphase, hpc, husp, hread, -⟩ := exec_push_next hd hsp
  obtain rfl : t = u := Host.Outcome.next.inj (h.symm.trans (hrun.trans hu))
  have hpc2 : t.pc.toNat = s.pc.toNat + 2 := hpc ▸ toNat_pc_add (n := 2) (by omega)
  have hslot : t.sp.toNat = t.pc.toNat := by
    have hone := toNat_sp_sub_one hsp
    rw [husp]
    omega
  have hbyte : t.byteAt 0 = s.getReg d := by rw [← hread, State.readMem, hslot, State.byteAt, Nat.add_zero]
  have hrunning : t.phase = .running := hphase.trans hs.1
  refine ⟨hbyte, fun hhlt => step_hlt ⟨hrunning, by omega, hbyte.trans hhlt⟩, fun hop => ?_⟩
  rw [← hbyte] at hop ⊢
  exact illegalOpcodeFaults t hrunning (by omega) hop

end Sys2Proof.Machine
end

section
/-! SUPPORT. A word placed at the pc is what the next step fetches (log entry 2). -/

namespace Sys2Proof.Machine

@[simp] theorem readyToFetch_phase (s : State) : s.readyToFetch.phase = .running := by
  unfold State.readyToFetch
  split <;> simp_all

@[simp] theorem readyToFetch_mem (s : State) : s.readyToFetch.mem = s.mem := by
  unfold State.readyToFetch
  split <;> rfl

@[simp] theorem readyToFetch_pc (s : State) : s.readyToFetch.pc = s.pc := by
  unfold State.readyToFetch
  split <;> rfl

/-- Three bytes placed at a pc that has room for them. -/
theorem placeBytes_mem {s : State} (h : s.pc.toNat ≤ 253) (a b c : Byte) : (s.placeBytes [a, b, c]).mem =
    ((s.mem.write s.pc.toNat a).write (s.pc.toNat + 1) b).write (s.pc.toNat + 2) c := by
  have h0 : s.pc.toNat < 256 := by omega
  have h1 : s.pc.toNat + 1 < 256 := by omega
  have h2 : s.pc.toNat + 2 < 256 := by omega
  simp [State.placeBytes, Config.memSize, h0, h1, h2]

/-- A fetch at a pc that has room for three bytes sees the ones that were placed there. -/
theorem fetchBytes_placed {s : State} (h : s.pc.toNat ≤ 253) (a b c : Byte) :
    (s.placeBytes [a, b, c]).readyToFetch.fetchBytes = [a, b, c] := by
  have hpc : (s.placeBytes [a, b, c]).readyToFetch.pc = s.pc := readyToFetch_pc _
  rcases fetchBytes_cases (s.placeBytes [a, b, c]).readyToFetch with ⟨h', -⟩ | ⟨h', -⟩ | ⟨h', -⟩ | ⟨-, hb⟩
  · rw [hpc] at h'; omega
  · rw [hpc] at h'; omega
  · rw [hpc] at h'; omega
  · rw [hb, hpc, readyToFetch_mem, placeBytes_mem h]
    simp [Memory.read_write]

theorem decode_of_decodeTableWord {nbits w : Nat} {i : Instr} (h : decodeTableWord nbits w = some i) :
    ∃ rest, decode (tableBytes nbits w) = .ok (i, rest) := by
  unfold decodeTableWord at h
  split at h
  · cases h; exact ⟨_, ‹_›⟩
  · cases h

/-- Settles O52: the fetch sees the word's three bytes, and the core is Running. -/
theorem placedWordRunsNext : Obligations.PlacedWordRunsNext := by
  intro s nbits w i hpc hw
  obtain ⟨rest, hd⟩ := decode_of_decodeTableWord hw
  have hbytes : (s.withFetchWord nbits w).fetchBytes = tableBytes nbits w := fetchBytes_placed hpc _ _ _
  exact step_fetched (readyToFetch_phase _) (fetch_of_decode (hbytes ▸ hd))

end Sys2Proof.Machine
end

section
/-! SUPPORT. Runs under a budget (R90, R99, R102): a result is where the core stopped, and stays one. -/

namespace Sys2Proof.Machine

/-- A result under a budget is the result under every larger one. -/
theorem run_add {n : Nat} {s t : State} (h : run n s = some t) (k : Nat) : run (n + k) s = some t := by
  induction n generalizing s with
  | zero =>
    by_cases hp : s.phase = .running
    · simp [run, State.running, hp] at h
    · rw [run_outside hp] at h ⊢
      exact h
  | succ n ih =>
    by_cases hp : s.phase = .running
    · obtain ⟨u, hs, -⟩ := stepIsTotal s hp
      rw [run_succ hp hs] at h
      rw [Nat.succ_add, run_succ hp hs]
      exact ih h
    · rw [run_outside hp] at h ⊢
      exact h

/-- What a result is: the state itself outside Running, and of a Running core a state that is Halted or Faulted. -/
theorem run_result {n : Nat} {s t : State} (h : run n s = some t) :
    (s.phase ≠ .running ∧ t = s) ∨ (s.phase = .running ∧ (t.phase = .halted ∨ t.phase = .faulted)) := by
  induction n generalizing s with
  | zero =>
    by_cases hp : s.phase = .running
    · simp [run, State.running, hp] at h
    · exact .inl ⟨hp, Option.some.inj (h.symm.trans (run_outside hp 0))⟩
  | succ n ih =>
    by_cases hp : s.phase = .running
    · obtain ⟨u, hs, hu⟩ := stepIsTotal s hp
      rw [run_succ hp hs] at h
      rcases ih h with ⟨hnr, rfl⟩ | ⟨-, hend⟩
      · exact .inr ⟨hp, hu.resolve_left hnr⟩
      · exact .inr ⟨hp, hend⟩
    · exact .inl ⟨hp, Option.some.inj (h.symm.trans (run_outside hp _))⟩

/-- The host's run of a machine takes one step and goes on from its result. -/
theorem hostRun_succ (M : Host.Core) {s t : M.State} (h : M.step s = .next t) (n : Nat) :
    M.run (n + 1) s = M.run n t := by
  rw [Host.Core.run, h]

/-- Without a result every step of the budget was taken, and the core still runs. -/
theorem run_none {n : Nat} {s : State} (h : run n s = none) :
    ∃ t : State, Host.Core.run core n s = .next t ∧ t.phase = .running := by
  induction n generalizing s with
  | zero =>
    by_cases hp : s.phase = .running
    · exact ⟨s, rfl, hp⟩
    · cases h.symm.trans (run_outside hp 0)
  | succ n ih =>
    by_cases hp : s.phase = .running
    · obtain ⟨u, hs, -⟩ := stepIsTotal s hp
      rw [run_succ hp hs] at h
      obtain ⟨t, ht, htr⟩ := ih h
      exact ⟨t, (hostRun_succ core hs n).trans ht, htr⟩
    · cases h.symm.trans (run_outside hp _)

/-- Settles O58, from the three facts about a run above. -/
theorem runResultIsFinal : Obligations.RunResultIsFinal := by
  refine ⟨fun n k s t h => ⟨run_add h k, ?_, fun hp => ?_⟩, fun n s => run_none⟩
  · rcases run_result h with ⟨hnr, rfl⟩ | ⟨-, hend | hend⟩
    · exact hnr
    all_goals rw [hend]; decide
  · rcases run_result h with ⟨hnr, -⟩ | ⟨-, hend⟩
    · exact absurd hp hnr
    · exact hend

end Sys2Proof.Machine
end

section
/-! SUPPORT. The loader's text form (R59): the literal of a byte reads back as the byte, and lines that hold no byte change
nothing. -/

namespace Sys2Proof.Machine.Text

/-! ### The literal of a byte -/

/-- The digit that `writeLine` puts for bit `k`. -/
def bitDigit (b : Byte) (k : Nat) : Char := if b.getLsbD k then '1' else '0'

theorem writeLine_eq (b : Byte) : writeLine b = (List.range 8).reverse.map (bitDigit b) := rfl

/-- A binary digit is neither the comment's sign nor white space. -/
theorem bitDigit_cases (b : Byte) (k : Nat) : bitDigit b k = '0' ∨ bitDigit b k = '1' := by
  unfold bitDigit
  split
  · exact .inr rfl
  · exact .inl rfl

theorem mem_writeLine {b : Byte} {c : Char} (h : c ∈ writeLine b) : c = '0' ∨ c = '1' := by
  obtain ⟨k, -, rfl⟩ := List.mem_map.mp h
  exact bitDigit_cases b k

theorem writeLine_length (b : Byte) : (writeLine b).length = 8 := rfl

/-- A digit is read as the bit it was written for. -/
theorem binaryDigits_bitDigit (b : Byte) (k acc : Nat) (rest : List Char) :
    binaryDigits acc (bitDigit b k :: rest) = binaryDigits (2 * acc + (b.getLsbD k).toNat) rest := by
  cases hb : b.getLsbD k with
  | false => simp [binaryDigits, bitDigit, hb]
  | true => simp [binaryDigits, bitDigit, hb]

/-- The value below `2 ^ (n + 1)` is bit `n` and the value below `2 ^ n`. -/
theorem toNat_mod_two_pow_succ (b : Byte) (n : Nat) :
    b.toNat % 2 ^ (n + 1) = (b.getLsbD n).toNat * 2 ^ n + b.toNat % 2 ^ n := by
  have hbit : (b.getLsbD n).toNat = b.toNat / 2 ^ n % 2 := Nat.toNat_testBit b.toNat n
  rw [Nat.mod_pow_succ, hbit, Nat.mul_comm, Nat.add_comm]

/-- The digits of the `n` low bits, the highest first, stand for the byte's value below `2 ^ n`. -/
theorem binaryDigits_bits (b : Byte) (n acc : Nat) :
    binaryDigits acc ((List.range n).reverse.map (bitDigit b)) = some (acc * 2 ^ n + b.toNat % 2 ^ n) := by
  induction n generalizing acc with
  | zero => simp [binaryDigits, Nat.mod_one]
  | succ n ih =>
    rw [List.range_succ, List.reverse_append, List.reverse_singleton, List.singleton_append, List.map_cons,
      binaryDigits_bitDigit, ih, toNat_mod_two_pow_succ]
    congr 1
    ring

theorem binaryDigits_writeLine (b : Byte) : binaryDigits 0 (writeLine b) = some b.toNat := by
  rw [writeLine_eq, binaryDigits_bits, Nat.zero_mul, Nat.zero_add, Nat.mod_eq_of_lt b.isLt]

/-! ### Lines -/

/-- Where no character is white space, nothing is dropped. -/
theorem dropWhile_isBlank {line : List Char} (h : ∀ c ∈ line, isBlank c = false) : line.dropWhile isBlank = line := by
  cases line with
  | nil => rfl
  | cons c rest => simp [h c (List.mem_cons_self ..)]

/-- The body of a line that begins with a literal, where only a comment follows, is the literal. -/
theorem lineBody_writeLine (b : Byte) {rest : List Char} (h : rest.takeWhile (fun c => c != '#') = []) :
    lineBody (writeLine b ++ rest) = writeLine b := by
  have hmark : ∀ c ∈ writeLine b, (c != '#') = true := by
    intro c hc
    rcases mem_writeLine hc with rfl | rfl <;> rfl
  have hblank : ∀ c ∈ writeLine b, isBlank c = false := by
    intro c hc
    rcases mem_writeLine hc with rfl | rfl <;> rfl
  rw [lineBody, List.takeWhile_append_of_pos hmark, h, List.append_nil, dropWhile_isBlank hblank,
    dropWhile_isBlank fun c hc => hblank c (List.mem_reverse.mp hc), List.reverse_reverse]

theorem readLine_of_lineBody {line : List Char} {b : Byte} (h : lineBody line = writeLine b) :
    readLine line = .byte b := by
  unfold readLine
  rw [h]
  split
  case h_1 hnil => cases hnil
  case h_2 =>
    rw [if_pos (writeLine_length b), binaryDigits_writeLine]
    exact congrArg Line.byte ((BitVec.ofNat_toNat 8 b).trans (BitVec.setWidth_eq b))

/-- The literal of a byte, alone on its line or with a comment after it, reads back as the byte. -/
theorem readLine_writeLine (b : Byte) {rest : List Char} (h : rest.takeWhile (fun c => c != '#') = []) :
    readLine (writeLine b ++ rest) = .byte b :=
  readLine_of_lineBody (lineBody_writeLine b h)

/-- A line that holds no byte changes nothing, wherever it stands. -/
theorem readImage_skipped {line : List Char} (h : readLine line = .skipped) (before after : List (List Char)) :
    readImage (before ++ line :: after) = readImage (before ++ after) := by
  induction before with
  | nil => rw [List.nil_append, readImage, h, List.nil_append]
  | cons first before ih => simp only [List.cons_append, readImage, ih]

theorem readImage_writeLine (image : List Byte) : readImage (image.map writeLine) = some image := by
  induction image with
  | nil => rfl
  | cons b image ih =>
    have hline : readLine (writeLine b) = .byte b := readLine_writeLine b (rest := []) rfl
    rw [List.map_cons, readImage, hline, ih]
    rfl

/-- Settles O59: the literals read back byte by byte, and a comment and an empty line are skipped. -/
theorem textImageReadsBack : Obligations.TextImageReadsBack :=
  ⟨readImage_writeLine, fun b _ => readLine_writeLine b rfl,
    fun before after _ => ⟨readImage_skipped rfl before after, readImage_skipped rfl before after⟩⟩

end Sys2Proof.Machine.Text
end
